-- ==== Sys2Proof/Word.lean ====
section
/-! DEFINITION. The bit-vector types of the block's fields (spec 00 R7, 10 R25, R26). All values are unsigned. -/

namespace Sys2Proof

/-- A byte of the stream, the narrowest data operand (00 R2). -/
abbrev Byte := BitVec 8

/-- A 16-bit chunk (42 R141). -/
abbrev Half := BitVec 16

/-- A CRC value, a command word, an exponent or a gap (00 R6). -/
abbrev Word := BitVec 32

/-- A carry-less factor or a 64-bit chunk (00 R6). -/
abbrev DWord := BitVec 64

/-- A fold accumulator, a fold block, a product or the result field (00 R6). -/
abbrev QWord := BitVec 128

end Sys2Proof
end

