-- ==== Sys2Proof/Syntax.lean ====
section
/-! DEFINITION. The thirteen commands of the opcode map (spec 30 R61), one constructor per row of opcode_table.json.

An `Instr` is what a command WORD says. The operand values S, A, B and N travel beside the word in the transaction
(10 R25) and are no part of it. -/

namespace Sys2Proof

inductive Instr where
  /-- CRCB8: one byte, bit-serial (41 R121). -/
  | crcb8
  /-- CRCT8: one byte, table-driven (41 R122). -/
  | crct8
  /-- CRCT32: four bytes, slice-by-4 (41 R123). -/
  | crct32
  /-- TBLRD: read one entry of table row `row` (41 R120). `row` is the word's only immediate (30 R62). -/
  | tblrd (row : Nat)
  /-- CRC8: native step over one byte (42 R140). -/
  | crc8
  /-- CRC16: native step over two bytes (42 R141). -/
  | crc16
  /-- CRC32: native step over four bytes (42 R142). -/
  | crc32
  /-- CRC64: native step over eight bytes (42 R143). -/
  | crc64
  /-- XNMODP: the power x^N mod P (40 R100). -/
  | xnmodp
  /-- CLMUL: 64 × 64 carry-less multiplication (40 R101). -/
  | clmul
  /-- MERGE: combine two partial CRCs (40 R102). -/
  | merge
  /-- FOLD: one 128-bit folding step (43 R160). -/
  | fold
  /-- FOLDRED: reduce a 128-bit accumulator (43 R161). -/
  | foldred
deriving DecidableEq, Repr

end Sys2Proof
end

