-- ==== Sys2Proof/WellFormed.lean ====
section
/-! DEFINITION. Which instruction terms a command word can hold (spec 30 R62: ROW is a 2-bit unsigned number). -/

namespace Sys2Proof

/-- The one field of the syntax, TBLRD's row, names one of the four table rows (30 R62). -/
def Instr.wellFormed : Instr → Bool
  | .tblrd row => decide (row < 4)
  | .crcb8 | .crct8 | .crct32 | .crc8 | .crc16 | .crc32 | .crc64 => true
  | .xnmodp | .clmul | .merge | .fold | .foldred => true

end Sys2Proof
end

