-- ==== Sys2Proof/Decode.lean ====
section
/-! DEFINITION. Decoding of the command word and its encoder (spec 30 R60 to R64).

The word is a value on the command port, not bytes in a memory (20 R52), so there is no fetch order of bytes. -/

namespace Sys2Proof

/-- `OPC = CMD[4:0]` (30 R60). -/
def opcField (w : Word) : BitVec 5 := w.extractLsb' 0 5

/-- `RSV0 = CMD[7:5]` (30 R60). -/
def rsv0Field (w : Word) : BitVec 3 := w.extractLsb' 5 3

/-- `ROW = CMD[9:8]` (30 R60, R62). -/
def rowField (w : Word) : BitVec 2 := w.extractLsb' 8 2

/-- `RSV1 = CMD[31:10]` (30 R60). -/
def rsv1Field (w : Word) : BitVec 22 := w.extractLsb' 10 22

/-- Why a word is no command (30 R64). The block reports no cause (60 R203): the names exist inside the decoder only. -/
inductive Reject where
  /-- A `1` in RSV0 or RSV1. -/
  | reservedBit
  /-- An OPC value that 30 R61 assigns to nothing. -/
  | unassignedOpcode (opc : Nat)
  /-- A nonzero ROW with an opcode other than TBLRD. -/
  | rowNotZero (opc : Nat)
deriving DecidableEq, Repr

/-- The opcode map of 30 R61; `row` is the ROW field, which only TBLRD keeps. -/
def opcodeInstr (opc row : Nat) : Option Instr :=
  match opc with
  | 0x01 => some .crcb8
  | 0x02 => some .crct8
  | 0x03 => some .crct32
  | 0x04 => some (.tblrd row)
  | 0x08 => some .crc8
  | 0x09 => some .crc16
  | 0x0A => some .crc32
  | 0x0B => some .crc64
  | 0x10 => some .xnmodp
  | 0x11 => some .clmul
  | 0x12 => some .merge
  | 0x18 => some .fold
  | 0x19 => some .foldred
  | _ => none

/-- The decoder (30 R63, R64): total, and every word is one command or rejected. -/
def decode (w : Word) : Except Reject Instr :=
  if rsv0Field w ≠ 0 ∨ rsv1Field w ≠ 0 then .error .reservedBit
  else
    match opcodeInstr (opcField w).toNat (rowField w).toNat with
    | none => .error (.unassignedOpcode (opcField w).toNat)
    | some i =>
      if rowField w ≠ 0 ∧ opcField w ≠ 0x04 then .error (.rowNotZero (opcField w).toNat) else .ok i

/-- The OPC value of each command (30 R61). -/
def Instr.opcode : Instr → Nat
  | .crcb8 => 0x01
  | .crct8 => 0x02
  | .crct32 => 0x03
  | .tblrd _ => 0x04
  | .crc8 => 0x08
  | .crc16 => 0x09
  | .crc32 => 0x0A
  | .crc64 => 0x0B
  | .xnmodp => 0x10
  | .clmul => 0x11
  | .merge => 0x12
  | .fold => 0x18
  | .foldred => 0x19

/-- The ROW value of each command: the row of TBLRD, else 0 (30 R62). -/
def Instr.rowValue : Instr → Nat
  | .tblrd row => row
  | .crcb8 | .crct8 | .crct32 | .crc8 | .crc16 | .crc32 | .crc64 => 0
  | .xnmodp | .clmul | .merge | .fold | .foldred => 0

/-- The command word of an instruction (30 R60, R61): OPC in bits 4:0, ROW in bits 9:8, all else 0. -/
def encode (i : Instr) : Word := BitVec.ofNat 32 (i.opcode + i.rowValue * 256)

/-- A row of opcode_table.json: its mnemonic, mask and match (30 R63). -/
structure OpcodeRow where
  mnemonic : String
  mask : Word
  value : Word
deriving DecidableEq, Repr

/-- opcode_table.json, row for row (30 R63). -/
def opcodeRows : List OpcodeRow :=
  [⟨"CRCB8", 0xFFFFFFFF#32, 0x01#32⟩, ⟨"CRCT8", 0xFFFFFFFF#32, 0x02#32⟩,
   ⟨"CRCT32", 0xFFFFFFFF#32, 0x03#32⟩, ⟨"TBLRD", 0xFFFFFCFF#32, 0x04#32⟩,
   ⟨"CRC8", 0xFFFFFFFF#32, 0x08#32⟩, ⟨"CRC16", 0xFFFFFFFF#32, 0x09#32⟩,
   ⟨"CRC32", 0xFFFFFFFF#32, 0x0A#32⟩] ++
  [⟨"CRC64", 0xFFFFFFFF#32, 0x0B#32⟩, ⟨"XNMODP", 0xFFFFFFFF#32, 0x10#32⟩,
   ⟨"CLMUL", 0xFFFFFFFF#32, 0x11#32⟩, ⟨"MERGE", 0xFFFFFFFF#32, 0x12#32⟩,
   ⟨"FOLD", 0xFFFFFFFF#32, 0x18#32⟩, ⟨"FOLDRED", 0xFFFFFFFF#32, 0x19#32⟩]

/-- The row matches the word: `(w & mask) = match` (30 R63). -/
def OpcodeRow.matches (r : OpcodeRow) (w : Word) : Bool := w &&& r.mask == r.value

/-- The instruction the decoder reads from a word whose low `nbits` bits are `w`'s and whose other bits are 0.
A command word has 32 bits (30 R60), so a number of more bits is no word (log 9). -/
def decodeTableWord (nbits w : Nat) : Option Instr :=
  let v := w % 2 ^ nbits
  if v < 2 ^ 32 then
    match decode (BitVec.ofNat 32 v) with
    | .ok i => some i
    | .error _ => none
  else none

end Sys2Proof
end

