-- ==== Sys2Proof/Config.lean ====
section
/-! DEFINITION. What an implementation of the block fixes and the spec leaves open (spec 00 R6, 93 I2).

`LAT_<op>` (93 I1) has no constant here: "A model has no time" (70 R244); the state's schedule carries it (log 3). -/

namespace Sys2Proof

/-- How far `MAX_INFLIGHT` exceeds its least value 1. Free: nothing evaluates it (92 D20). -/
opaque Config.maxInflightExtra : Nat

/-- `MAX_INFLIGHT`, the number of accepted commands that may be unanswered at once: an integer ≥ 1 (00 R6, 10 R28). -/
def Config.maxInflight : Nat := Config.maxInflightExtra + 1

end Sys2Proof
end

