-- ==== Sys2Proof/Machine/Gf2.lean ====
section
/-! DEFINITION. The primitives of spec 00 R13 to R17 over GF(2), and the square-and-multiply method that
40 R100 leaves an implementation free to use. -/

namespace Sys2Proof.Machine

/-- The reflected form of the generator polynomial (00 R10). -/
def castagnoli : Word := 0x82F63B78#32

/-- The value that represents the polynomial `1` (00 R11). -/
def onePoly : Word := 0x80000000#32

/-- `mulx(r)`: multiply by x and reduce modulo P, one shift-and-conditional-XOR step (00 R13). -/
def mulx (r : Word) : Word := if r.getLsbD 0 then (r >>> 1) ^^^ castagnoli else r >>> 1

/-- `mulxn(r, n)`: `mulx` applied `n` times (00 R13). -/
def mulxn (r : Word) : Nat → Word
  | 0 => r
  | n + 1 => mulx (mulxn r n)

/-- `f r`. The match makes a kernel evaluation compute `r` once, before `f` uses it. -/
def withValue {α : Type} (r : Word) (f : Word → α) : α :=
  match r.toNat with
  | 0 => f 0#32
  | k + 1 => f (BitVec.ofNat 32 (k + 1))

/-- `crc_byte(r, d)`: one byte of the bit-serial reference (00 R14). -/
def crcByte (r : Word) (d : Byte) : Word := mulxn (r ^^^ d.setWidth 32) 8

/-- `crc_bytes(r, D)`: the raw CRC remainder of a byte sequence (00 R15). -/
def crcBytes (r : Word) : List Byte → Word
  | [] => r
  | d :: ds => withValue (crcByte r d) fun r' => crcBytes r' ds

/-- `le_bytes(v, m)`: the low `m` bytes of `v`, least significant first (00 R16). -/
def leBytes {w : Nat} (v : BitVec w) : Nat → List Byte
  | 0 => []
  | m + 1 => v.setWidth 8 :: leBytes (v >>> 8) m

/-- `from_le`: byte `j` in bits `8j+7:8j` of a `w`-bit value (00 R16). -/
def fromLe (w : Nat) : List Byte → BitVec w
  | [] => 0#w
  | d :: ds => (fromLe w ds <<< 8) ||| d.setWidth w

/-- The loop of `clmul` (00 R17) over bits `0 .. n-1` of `b`. -/
def clmulUpTo (a b : DWord) : Nat → QWord
  | 0 => 0#128
  | i + 1 => if b.getLsbD i then clmulUpTo a b i ^^^ (a.setWidth 128 <<< i) else clmulUpTo a b i

/-- `clmul(a, b)`: the carry-less product as integers over GF(2) (00 R17). -/
def clmul (a b : DWord) : QWord := clmulUpTo a b 64

/-- The loop of `mulMod`: bits `32-k .. 31` of `a` are still to come, highest power of x first. -/
def mulModFrom (a b : Word) : Nat → Word → Word
  | 0, acc => acc
  | k + 1, acc => withValue (mulx acc ^^^ (if a.getLsbD (31 - k) then b else 0#32)) fun acc' => mulModFrom a b k acc'

/-- The product of two represented polynomials modulo P, by Horner's rule. -/
def mulMod (a b : Word) : Word := mulModFrom a b 32 0#32

/-- The loop of `xpow`: bits `k-1 .. 0` of the exponent are still to come. -/
def xpowFrom (n : Word) : Nat → Word → Word
  | 0, r => r
  | k + 1, r => withValue (if n.getLsbD k then mulx (mulMod r r) else mulMod r r) fun r' => xpowFrom n k r'

/-- `x^n mod P` by square and multiply. It equals the `n` serial steps of 40 R100 (Laws: `xpow_eq_mulxn`);
"the method is not" fixed (40 R100, 93 I9; log 7). -/
def xpow (n : Word) : Word := xpowFrom n 32 onePoly

/-- Zero-extension of a 32-bit result into the result field (10 R26). -/
def zext128 (r : Word) : QWord := r.setWidth 128

end Sys2Proof.Machine
end

