-- ==== Sys2Proof/Machine/Rom.lean ====
section
/-! DEFINITION. The constant ROM: the 4×256 lookup table and the fold constants (spec 10 R21 to R24). -/

namespace Sys2Proof.Machine

/-- The constant ROM. No command writes it (10 R24). -/
structure Rom where
  /-- `T[0..3][0..255]` (10 R21, R22). -/
  table : Vector (Vector Word 256) 4
  /-- `K0` (10 R23). -/
  k0 : Word
  /-- `K1` (10 R23). -/
  k1 : Word
deriving DecidableEq, Repr

/-- The defining formula of entry `T[k][i]` (10 R21 for row 0, 10 R22 for the rows after it). -/
def tableEntry : Nat → Byte → Word
  | 0, i => crcByte 0#32 i
  | k + 1, i =>
    withValue (tableEntry k i) fun t => (t >>> 8) ^^^ crcByte 0#32 (t.setWidth 8)

/-- The vector of `f 0 .. f (n-1)`. -/
def tabulate {α : Type} (n : Nat) (f : Nat → α) : Vector α n := ⟨((List.range n).map f).toArray, by simp⟩

/-- The content the ROM has at every instant (10 R24): derived from the formulas, no hand-coded literal (10 R24). -/
def Rom.content : Rom where
  table := tabulate 4 fun k => tabulate 256 fun i => tableEntry k (BitVec.ofNat 8 i)
  k0 := xpow 159#32
  k1 := xpow 95#32

/-- `T[k][i]` (20 R48). -/
def Rom.entry (rom : Rom) (k : Fin 4) (i : Byte) : Word := (rom.table[k.val])[i.toNat]'i.isLt

end Sys2Proof.Machine
end

