-- ==== Sys2Proof/Machine/State.lean ====
section
/-! DEFINITION. The state of the block and of its two ports, the reasons a step can stop, and reset
(spec 10 R20 to R33, 70 R230, R231). -/

namespace Sys2Proof.Machine

/-- One transaction on the command port, all fields present (10 R25). -/
structure Command where
  /-- `CMD`, the command word. -/
  cmd : Word
  /-- `S`, seed, accumulator or first partial CRC. -/
  s : Word
  /-- `A`, data chunk, second partial CRC, index, first factor or fold accumulator. -/
  a : QWord
  /-- `B`, second factor or next fold block. -/
  b : QWord
  /-- `N`, exponent or gap. -/
  n : Word
deriving DecidableEq, Repr

/-- One transaction on the response port (10 R26). STATUS codes 2 and 3 have no constructor: they are never
produced (60 R200). -/
inductive Response where
  /-- `STATUS = OK` with its result `R`. -/
  | ok (r : QWord)
  /-- `STATUS = ILLEGAL`. `R` carries no value (60 R202), so there is none here. -/
  | illegal
deriving DecidableEq, Repr

/-- What can happen next at the block. The order is free (20 R49, 70 R242; log 2). -/
inductive Event where
  /-- The command port's handshake: the block accepts the oldest command offered (10 R28). -/
  | accept
  /-- The block answers its oldest accepted command (10 R28, 20 R49). -/
  | respond
  /-- The host takes the oldest response (10 R26). -/
  | deliver
  /-- Time passes: latency (70 R244), a host that waits, a build phase after reset (70 R232). -/
  | wait
  /-- Reset (70 R230). -/
  | reset
deriving DecidableEq, Repr

/-- The block (`rom`, `inflight`, `responses`) and the outside world beside it (`offered`, `delivered`,
`schedule`; logs 1 and 2). -/
structure State where
  /-- The constant ROM (10 R21 to R24). -/
  rom : Rom
  /-- `INFLIGHT`: accepted, unanswered commands, oldest first (10 R28). -/
  inflight : List Command
  /-- Responses produced and not yet delivered, oldest first (70 R230). -/
  responses : List Response
  /-- Commands the host drives on the port and the block has not accepted, oldest first (10 R30; log 1). -/
  offered : List Command
  /-- Responses the host has received, oldest first (log 1). -/
  delivered : List Response
  /-- Which event comes next, and after it (log 2). No rule reads it but the step. -/
  schedule : List Event
deriving DecidableEq, Repr

/-- Why the machine stops. -/
inductive Fault where
  /-- `Illegal(cmd)` (60 R202): the command word `cmd` is not legal. Raised by answering such a command, by the one
  operation `raiseIllegal`. `after` is the state the block goes on from (60 R206, R207): the command is out of
  INFLIGHT and an ILLEGAL response stands in its place. Safe: no result is exposed (log 5). -/
  | illegal (cmd : Word) (after : State)
deriving DecidableEq, Repr

/-- Why the model gives no meaning. -/
inductive Refusal where
  /-- Raised by an arm of `exec` that has no meaning yet; no arm is one. Safe. -/
  | notModelled (mnemonic : String)
  /-- Raised by every meaning in a state with no command in flight: there is no transaction whose operands it could
  read. No step raises it. Safe (log 11). -/
  | noCommandInFlight
  /-- Raised by TBLRD for a term whose row is none of the four (not well-formed, decoded from no word). No step
  raises it. Safe (log 10). -/
  | noSuchTableRow (row : Nat)
deriving DecidableEq, Repr

/-- The machine right after reset (10 R33, 70 R230, R231). -/
def State.reset : State where
  rom := Rom.content
  inflight := []
  responses := []
  offered := []
  delivered := []
  schedule := []

end Sys2Proof.Machine
end

