-- ==== Sys2Proof/Machine/Flags.lean ====
section
/-! DEFINITION. The block has no flags, condition codes or predicates (spec 10 R29). The one per-command outcome
besides the result is the response's STATUS (60 R200), computed here. -/

namespace Sys2Proof.Machine

/-- The 2-bit `STATUS` field: 0 = OK, 1 = ILLEGAL (60 R200). -/
def Response.status : Response → BitVec 2
  | .ok _ => 0#2
  | .illegal => 1#2

/-- The `R` field, where it has a value (60 R200, R202). -/
def Response.result : Response → Option QWord
  | .ok r => some r
  | .illegal => none

end Sys2Proof.Machine
end

