-- ==== Sys2Proof/Machine/Operands.lean ====
section
/-! DEFINITION. Every operand form of spec 30 R65: which bits of which field a command reads. -/

namespace Sys2Proof.Machine

/-- `A[7:0]`: a data byte or a table index. -/
def Command.byteA (c : Command) : Byte := c.a.setWidth 8

/-- `A[15:0]`. -/
def Command.halfA (c : Command) : Half := c.a.setWidth 16

/-- `A[31:0]`: a data word or a partial CRC. -/
def Command.wordA (c : Command) : Word := c.a.setWidth 32

/-- `A[63:0]`: a chunk, a factor, or the first lane of an accumulator (43 R160). -/
def Command.loA (c : Command) : DWord := c.a.setWidth 64

/-- `A[127:64]`: the second lane of an accumulator (43 R160). -/
def Command.hiA (c : Command) : DWord := c.a.extractLsb' 64 64

/-- `B[63:0]`: a factor. -/
def Command.loB (c : Command) : DWord := c.b.setWidth 64

/-- How many low bits of each field a command reads; 0 is a dash of the table (30 R65). -/
structure Reads where
  s : Nat
  a : Nat
  b : Nat
  n : Nat
deriving DecidableEq, Repr

/-- The operand table of 30 R65. -/
def reads : Instr → Reads
  | .crcb8 => ⟨32, 8, 0, 0⟩
  | .crct8 => ⟨32, 8, 0, 0⟩
  | .crct32 => ⟨32, 32, 0, 0⟩
  | .tblrd _ => ⟨0, 8, 0, 0⟩
  | .crc8 => ⟨32, 8, 0, 0⟩
  | .crc16 => ⟨32, 16, 0, 0⟩
  | .crc32 => ⟨32, 32, 0, 0⟩
  | .crc64 => ⟨32, 64, 0, 0⟩
  | .xnmodp => ⟨0, 0, 0, 32⟩
  | .clmul => ⟨0, 64, 64, 0⟩
  | .merge => ⟨32, 32, 0, 32⟩
  | .fold => ⟨0, 128, 128, 0⟩
  | .foldred => ⟨0, 128, 0, 0⟩

/-- How many low bits of `R` the result has; the bits above it are 0 (10 R26, 30 R65). -/
def resultWidth : Instr → Nat
  | .clmul | .fold => 128
  | .crcb8 | .crct8 | .crct32 | .tblrd _ | .crc8 | .crc16 | .crc32 | .crc64 => 32
  | .xnmodp | .merge | .foldred => 32

end Sys2Proof.Machine
end

