-- ==== Sys2Proof/Machine/Ops.lean ====
section
/-! DEFINITION. The named operations on the block's queue and ports (spec 10 R28, 20 R49, 60 R202, 70 R230).

The block has no registers and no memory (10 R32, 20 R40), so no operation reads or writes one. -/

namespace Sys2Proof.Machine

/-- The outcome of a step of this machine. -/
abbrev Result := Host.Outcome State Fault Refusal

/-- INFLIGHT has room for one more command (10 R28). -/
def State.hasRoom (s : State) : Bool := decide (s.inflight.length < Config.maxInflight)

/-- The accept handshake: the oldest command offered joins INFLIGHT if there is room. Else the port holds the
host and nothing changes (10 R28, 93 I3). -/
def State.accept (s : State) : State :=
  match s.offered with
  | [] => s
  | c :: rest => if s.hasRoom then { s with inflight := s.inflight ++ [c], offered := rest } else s

/-- The oldest accepted command leaves INFLIGHT and its response joins the response stream (10 R28, 20 R49). -/
def State.answer (s : State) (r : Response) : State :=
  { s with inflight := s.inflight.tail, responses := s.responses ++ [r] }

/-- The host takes the oldest response (10 R26, 20 R49). -/
def State.deliver (s : State) : State :=
  match s.responses with
  | [] => s
  | r :: rest => { s with responses := rest, delivered := s.delivered ++ [r] }

/-- Reset of the block (70 R230): INFLIGHT is emptied, its commands get no response, and undelivered responses are
dropped. What the host holds stays (log 12). The ROM has no write port (10 R24). -/
def State.resetBlock (s : State) : State := { s with inflight := [], responses := [] }

/-- A legal command completes (60 R201): the result its rule gives, with `STATUS = OK`. `f` is that rule, a function
of the ROM and the command alone (10 R20). -/
def State.complete (f : Rom → Command → QWord) (s : State) : Result :=
  match s.inflight with
  | [] => .refused .noCommandInFlight
  | c :: _ => .next (s.answer (.ok (f s.rom c)))

/-- The error entry of the block, the whole of it (60 R202, R206): fault `Illegal(cmd)`; the ILLEGAL response keeps
its place in the stream and nothing else is recorded. There is no return from it (60 R207). -/
def raiseIllegal (c : Command) (s : State) : Result := .fault (.illegal c.cmd (s.answer .illegal))

/-- `s` with command word `w` in the oldest transaction in flight, its operand fields kept; where nothing is in
flight, in a transaction of zero operands. A schedule that would do something else first is put off (log 8). -/
def State.placeCommand (s : State) (w : Word) : State :=
  { s with
    inflight :=
      match s.inflight with
      | [] => [⟨w, 0#32, 0#128, 0#128, 0#32⟩]
      | c :: rest => { c with cmd := w } :: rest
    schedule :=
      match s.schedule with
      | [] => []
      | .respond :: es => .respond :: es
      | e :: es => .respond :: e :: es }

/-- What comes next: the schedule's head; when the schedule is used up, the block answers if it can and else
accepts (log 2). -/
def State.nextEvent (s : State) : Event :=
  match s.schedule with
  | e :: _ => e
  | [] =>
    match s.inflight with
    | [] => .accept
    | _ :: _ => .respond

/-- The schedule's head is used up. -/
def State.advance (s : State) : State := { s with schedule := s.schedule.tail }

end Sys2Proof.Machine
end

