-- ==== Sys2Proof/Machine/Folder.lean ====
section
/-! DEFINITION. The carry-less-multiplication folder (spec 40 R101, 43 R160, R161). -/

namespace Sys2Proof.Machine

/-- CLMUL (40 R101): all 128 bits of the product. -/
def execClmul (s : State) : Result := s.complete fun _ c => clmul c.loA c.loB

/-- One folding step of the lanes `lo` and `hi` onto a block (43 R160). -/
def foldStep (rom : Rom) (lo hi : DWord) (block : QWord) : QWord :=
  clmul lo (rom.k0.setWidth 64) ^^^ clmul hi (rom.k1.setWidth 64) ^^^ block

/-- FOLD (43 R160). -/
def execFold (s : State) : Result := s.complete fun rom c => foldStep rom c.loA c.hiA c.b

/-- FOLDRED (43 R161): the low half with seed 0, then the high half with that result as seed. -/
def execFoldred (s : State) : Result :=
  s.complete fun _ c => zext128 (crcBytes (crcBytes 0#32 (leBytes c.loA 8)) (leBytes c.hiA 8))

end Sys2Proof.Machine
end

