-- ==== Sys2Proof/Machine/Merger.lean ====
section
/-! DEFINITION. The partial-CRC merger (spec 40 R100, R102). -/

namespace Sys2Proof.Machine

/-- XNMODP (40 R100), for every `N`. -/
def execXnmodp (s : State) : Result := s.complete fun _ c => zext128 (xpow c.n)

/-- MERGE (40 R102), for every gap: `mulxn(S, N) ^ A[31:0]`, the shift as a product with `x^N mod P` (93 I9). -/
def execMerge (s : State) : Result := s.complete fun _ c => zext128 (mulMod (xpow c.n) c.s ^^^ c.wordA)

end Sys2Proof.Machine
end

