-- ==== Sys2Proof/Machine/Remainder.lean ====
section
/-! DEFINITION. The remainder generator (spec 41 R120 to R123, 42 R140 to R143). -/

namespace Sys2Proof.Machine

/-- CRCB8 (41 R121). -/
def execCrcb8 (s : State) : Result := s.complete fun _ c => zext128 (crcByte c.s c.byteA)

/-- The byte-wise lookup `(S >> 8) ^ T[0][(S ^ zext_32(d))[7:0]]` (41 R122). -/
def tableStep8 (rom : Rom) (r : Word) (d : Byte) : Word :=
  (r >>> 8) ^^^ rom.entry 0 ((r ^^^ d.setWidth 32).setWidth 8)

/-- CRCT8 (41 R122). -/
def execCrct8 (s : State) : Result := s.complete fun rom c => zext128 (tableStep8 rom c.s c.byteA)

/-- The slice-by-4 lookup: `T[3][x[7:0]] ^ T[2][x[15:8]] ^ T[1][x[23:16]] ^ T[0][x[31:24]]` with `x = S ^ A`
(41 R123). -/
def tableStep32 (rom : Rom) (r w : Word) : Word :=
  withValue (r ^^^ w) fun x =>
    rom.entry 3 (x.extractLsb' 0 8) ^^^ rom.entry 2 (x.extractLsb' 8 8) ^^^
      rom.entry 1 (x.extractLsb' 16 8) ^^^ rom.entry 0 (x.extractLsb' 24 8)

/-- CRCT32 (41 R123). -/
def execCrct32 (s : State) : Result := s.complete fun rom c => zext128 (tableStep32 rom c.s c.wordA)

/-- TBLRD (41 R120). -/
def execTblrd (row : Nat) (s : State) : Result :=
  if h : row < 4 then s.complete fun rom c => zext128 (rom.entry ⟨row, h⟩ c.byteA)
  else .refused (.noSuchTableRow row)

/-- CRC8 (42 R140). -/
def execCrc8 (s : State) : Result := s.complete fun _ c => zext128 (crcBytes c.s [c.byteA])

/-- CRC16 (42 R141). -/
def execCrc16 (s : State) : Result := s.complete fun _ c => zext128 (crcBytes c.s (leBytes c.halfA 2))

/-- CRC32 (42 R142). -/
def execCrc32 (s : State) : Result := s.complete fun _ c => zext128 (crcBytes c.s (leBytes c.wordA 4))

/-- CRC64 (42 R143). -/
def execCrc64 (s : State) : Result := s.complete fun _ c => zext128 (crcBytes c.s (leBytes c.loA 8))

end Sys2Proof.Machine
end

