-- ==== Sys2Proof/Machine/Dispatch.lean ====
section
/-! DEFINITION. One arm per command. -/

namespace Sys2Proof.Machine

def exec (i : Instr) (s : State) : Host.Outcome State Fault Refusal :=
  match i with
  | .crcb8 => Sys2Proof.Machine.execCrcb8 s
  | .crct8 => Sys2Proof.Machine.execCrct8 s
  | .crct32 => Sys2Proof.Machine.execCrct32 s
  | .tblrd row => Sys2Proof.Machine.execTblrd row s
  | .crc8 => Sys2Proof.Machine.execCrc8 s
  | .crc16 => Sys2Proof.Machine.execCrc16 s
  | .crc32 => Sys2Proof.Machine.execCrc32 s
  | .crc64 => Sys2Proof.Machine.execCrc64 s
  | .xnmodp => Sys2Proof.Machine.execXnmodp s
  | .clmul => Sys2Proof.Machine.execClmul s
  | .merge => Sys2Proof.Machine.execMerge s
  | .fold => Sys2Proof.Machine.execFold s
  | .foldred => Sys2Proof.Machine.execFoldred s

end Sys2Proof.Machine
end

