-- ==== Sys2Proof/Machine/Respond.lean ====
section
/-! DEFINITION. Answering a command, and what each event does (spec 10 R28, 60 R201, R202). -/

namespace Sys2Proof.Machine

/-- The block answers its oldest accepted command: a legal word runs (60 R201), any other is ILLEGAL (60 R202).
With nothing in flight there is nothing to answer. -/
def respond (s : State) : Result :=
  match s.inflight with
  | [] => .next s
  | c :: _ =>
    match decode c.cmd with
    | .error _ => raiseIllegal c s
    | .ok i => exec i s

/-- What an event does. -/
def runEvent (e : Event) (s : State) : Result :=
  match e with
  | .accept => .next s.accept
  | .respond => respond s
  | .deliver => .next s.deliver
  | .wait => .next s
  | .reset => .next s.resetBlock

/-- The `R` a host reads for one command issued to a block that holds nothing else; `none` where the response
carries no value (60 R202). -/
def answerOf (rom : Rom) (c : Command) : Option QWord :=
  match respond { State.reset with rom := rom, inflight := [c] } with
  | .next t => t.responses.head?.bind Response.result
  | .fault _ => none
  | .refused _ => none

end Sys2Proof.Machine
end

