-- ==== Sys2Proof/Machine/Step.lean ====
section
/-! DEFINITION. The step of the machine, and where its next command word stands. -/

namespace Sys2Proof.Machine

/-- One step: the next event happens. -/
def step (s : State) : Host.Outcome State Fault Refusal := runEvent s.nextEvent s.advance

/-- `s` with a command word of `nbits` given bits (the bits above them 0) where `step` takes its next command
(log 8). -/
def State.withFetchWord (s : State) (nbits w : Nat) : State := s.placeCommand (BitVec.ofNat 32 (w % 2 ^ nbits))

end Sys2Proof.Machine
end

