-- ==== Sys2Proof/Machine/Assembler.lean ====
section
/-! DEFINITION. The assembler syntax of spec 30 R67: one line of text to one command transaction (30 R69: each
mnemonic is exactly one command word). It is the host's; nothing of it exists in the block (30 R68). -/

namespace Sys2Proof.Machine

/-- A digit of base 10 or 16. -/
def digitValue (base : Nat) (ch : Char) : Option Nat :=
  let v := ch.toNat
  let d :=
    if 48 ≤ v ∧ v ≤ 57 then v - 48
    else if 65 ≤ v ∧ v ≤ 70 then v - 55
    else if 97 ≤ v ∧ v ≤ 102 then v - 87
    else 16
  if d < base then some d else none

/-- A nonempty run of digits, most significant first. -/
def parseDigits (base : Nat) : Nat → List Char → Option Nat
  | _, [] => none
  | acc, [ch] => (digitValue base ch).map (acc * base + ·)
  | acc, ch :: rest => (digitValue base ch).bind fun d => parseDigits base (acc * base + d) rest

/-- A value: hexadecimal after `0x`, else decimal (30 R67). -/
def parseValue : List Char → Option Nat
  | '0' :: 'x' :: ds => parseDigits 16 0 ds
  | ds => parseDigits 10 0 ds

/-- The maximal pieces between the characters `sep`. -/
def splitChars (sep : Char) : List Char → List (List Char)
  | [] => [[]]
  | ch :: rest =>
    if ch = sep then [] :: splitChars sep rest
    else
      match splitChars sep rest with
      | [] => [[ch]]
      | p :: ps => (ch :: p) :: ps

/-- A line's mnemonic and its comma-separated operands, blanks dropped. -/
def splitLine (line : List Char) : List Char × List (List Char) :=
  let body := line.dropWhile (· = ' ')
  let rest := (body.dropWhile (· ≠ ' ')).filter (· ≠ ' ')
  (body.takeWhile (· ≠ ' '), if rest.isEmpty then [] else splitChars ',' rest)

/-- The mnemonics of 30 R61; TBLRD's row is its first operand and is set apart. -/
def mnemonicInstr (m : List Char) : Option Instr :=
  if m = "CRCB8".toList then some .crcb8
  else if m = "CRCT8".toList then some .crct8
  else if m = "CRCT32".toList then some .crct32
  else if m = "TBLRD".toList then some (.tblrd 0)
  else if m = "CRC8".toList then some .crc8
  else if m = "CRC16".toList then some .crc16
  else if m = "CRC32".toList then some .crc32
  else if m = "CRC64".toList then some .crc64
  else if m = "XNMODP".toList then some .xnmodp
  else if m = "CLMUL".toList then some .clmul
  else if m = "MERGE".toList then some .merge
  else if m = "FOLD".toList then some .fold
  else if m = "FOLDRED".toList then some .foldred
  else none

/-- The fields a line may write, in their order, with the port's widths (10 R25, 30 R67): those the command reads. -/
def writableFields (i : Instr) : List (Char × Nat) :=
  (if (reads i).s = 0 then [] else [('s', 32)]) ++ (if (reads i).a = 0 then [] else [('a', 128)]) ++
    (if (reads i).b = 0 then [] else [('b', 128)]) ++ (if (reads i).n = 0 then [] else [('n', 32)])

/-- The values of the fields in order; a field with no item is omitted and is 0 (30 R67). `none` if an item is left
over (a field out of order, twice, or not read) or a value does not fit its field (log 17). -/
def fieldValues : List (Char × Nat) → List (List Char) → Option (List (Char × Nat))
  | [], [] => some []
  | [], _ :: _ => none
  | (f, _) :: fs, [] => (fieldValues fs []).map ((f, 0) :: ·)
  | (f, width) :: fs, item :: items =>
    match item with
    | ch :: '=' :: v =>
      if ch = f then
        (parseValue v).bind fun x =>
          if x < 2 ^ width then (fieldValues fs items).map ((f, x) :: ·) else none
      else (fieldValues fs (item :: items)).map ((f, 0) :: ·)
    | _ => none

/-- The value of a field, 0 where it is omitted (30 R67). -/
def fieldOr0 (f : Char) : List (Char × Nat) → Nat
  | [] => 0
  | (g, x) :: rest => if f = g then x else fieldOr0 f rest

/-- The transaction of an instruction with the given field values. -/
def assembleFields (i : Instr) (vs : List (Char × Nat)) : Command where
  cmd := encode i
  s := BitVec.ofNat 32 (fieldOr0 's' vs)
  a := BitVec.ofNat 128 (fieldOr0 'a' vs)
  b := BitVec.ofNat 128 (fieldOr0 'b' vs)
  n := BitVec.ofNat 32 (fieldOr0 'n' vs)

/-- One line of assembler text (30 R67); `none` if it is not in the syntax. -/
def assemble (line : List Char) : Option Command :=
  let (m, items) := splitLine line
  match mnemonicInstr m, items with
  | none, _ => none
  | some (.tblrd _), [] => none
  | some (.tblrd _), k :: items =>
    (parseValue k).bind fun row =>
      if row < 4 then (fieldValues (writableFields (.tblrd row)) items).map (assembleFields (.tblrd row)) else none
  | some i, items => (fieldValues (writableFields i) items).map (assembleFields i)

/-! ### The forms of 30 R67, as text -/

/-- The mnemonic of an instruction (30 R61). -/
def mnemonicOf : Instr → String
  | .crcb8 => "CRCB8"
  | .crct8 => "CRCT8"
  | .crct32 => "CRCT32"
  | .tblrd _ => "TBLRD"
  | .crc8 => "CRC8"
  | .crc16 => "CRC16"
  | .crc32 => "CRC32"
  | .crc64 => "CRC64"
  | .xnmodp => "XNMODP"
  | .clmul => "CLMUL"
  | .merge => "MERGE"
  | .fold => "FOLD"
  | .foldred => "FOLDRED"

/-- The text of a value for each field of a line; `none` where the field is not written. -/
structure FieldTexts where
  s : Option (List Char)
  a : Option (List Char)
  b : Option (List Char)
  n : Option (List Char)
deriving DecidableEq, Repr

/-- The item `f=value`, or nothing. -/
def fieldItem (f : Char) : Option (List Char) → List (List Char)
  | none => []
  | some v => [f :: '=' :: v]

/-- The items of a line: TBLRD's row first, then the fields in the order `s`, `a`, `b`, `n` (30 R67). -/
def lineItems (i : Instr) (rowText : List Char) (t : FieldTexts) : List (List Char) :=
  (match i with
    | .tblrd _ => [rowText]
    | .crcb8 | .crct8 | .crct32 | .crc8 | .crc16 | .crc32 | .crc64 => []
    | .xnmodp | .clmul | .merge | .fold | .foldred => []) ++
  (fieldItem 's' t.s ++ (fieldItem 'a' t.a ++ (fieldItem 'b' t.b ++ fieldItem 'n' t.n)))

/-- Items separated by commas (30 R67), a blank after each. -/
def joinItems : List (List Char) → List Char
  | [] => []
  | [x] => x
  | x :: y :: rest => x ++ (',' :: ' ' :: joinItems (y :: rest))

/-- A line in the form of 30 R67: the mnemonic, a blank, the items. -/
def formLine (i : Instr) (rowText : List Char) (t : FieldTexts) : List Char :=
  (mnemonicOf i).toList ++ (' ' :: joinItems (lineItems i rowText t))

/-- The value a text writes; an omitted field is 0 (30 R67). -/
def textValue : Option (List Char) → Nat
  | none => 0
  | some v => (parseValue v).getD 0

/-- A text may stand for a field of `width` bits of which the instruction reads `read`: it is omitted, or the field is
read and the text is a value that fits it. -/
def textFits (read width : Nat) : Option (List Char) → Prop
  | none => True
  | some v => read ≠ 0 ∧ ∃ x < 2 ^ width, parseValue v = some x

/-- The texts of a line fit the instruction's fields (10 R25, 30 R65). -/
structure FieldTexts.Fits (i : Instr) (t : FieldTexts) : Prop where
  s : textFits (reads i).s 32 t.s
  a : textFits (reads i).a 128 t.a
  b : textFits (reads i).b 128 t.b
  n : textFits (reads i).n 32 t.n

end Sys2Proof.Machine
end

