-- ==== Sys2Proof/Machine/Procedures.lean ====
section
/-! DEFINITION. The host's side of the interface (spec 44 R180 to R190, 20 R55): the public operation `compute`, the
source's engines as sequences of commands, and the host's read of its buffer. They are host software over the block's
answers (`answerOf`), no part of the block.

In each procedure `addr` is the address of the first byte of the data and the CRC is the raw one (44, section 3). -/

namespace Sys2Proof.Machine

/-- How a host program can fail. -/
inductive HostFault where
  /-- The buffer holds a byte that is no readable memory (20 R55, 60 R204). Raised by `readBuffer`. Safe. -/
  | unreadable (addr : Nat)
  /-- The response to the command word carries no result (60 R202). Raised by `issue`. Safe. -/
  | illegalResponse (cmd : Word)
deriving DecidableEq, Repr

/-- What a host procedure returns. -/
abbrev HostM := Except HostFault

/-- The bytes of the buffer at `addr .. addr+len-1`. A byte that `mem` does not list is not readable (log 16). -/
def readBuffer (mem : List Host.Cell) (addr : Nat) : Nat → HostM (List Byte)
  | 0 => .ok []
  | len + 1 =>
    match mem.find? (fun cell => cell.1 == addr) with
    | none => .error (.unreadable addr)
    | some cell => do
      let rest ← readBuffer mem (addr + 1) len
      .ok (cell.2 :: rest)

/-- Issue one command and wait for its response (70 R241). -/
def issue (rom : Rom) (i : Instr) (s : Word) (a b : QWord) (n : Word) : HostM QWord :=
  match answerOf rom ⟨encode i, s, a, b, n⟩ with
  | some r => .ok r
  | none => .error (.illegalResponse (encode i))

/-- A CRC step with seed `c` over the data operand `a`; its 32-bit result. -/
def crcStep (rom : Rom) (i : Instr) (c : Word) (a : QWord) : HostM Word := do
  let r ← issue rom i c a 0#128 0#32
  .ok (r.setWidth 32)

/-- One MERGE command: `c` by `gap` bits, XORed with `b`. `gap` fits `N`. -/
def mergeStep (rom : Rom) (c b : Word) (gap : Nat) : HostM Word := do
  let r ← issue rom .merge c (zext128 b) 0#128 (BitVec.ofNat 32 gap)
  .ok (r.setWidth 32)

/-- The widest shift of one command (30 R65, 92 D33). -/
def maxGap : Nat := 2 ^ 32 - 1

/-- How many widest shifts come before the last command of a shift by `gap` bits: none where `gap` fits `N`. -/
def wideShifts (gap : Nat) : Nat := (gap - 1) / maxGap

/-- `k` shifts by `maxGap` bits (40 R105). -/
def shiftWide (rom : Rom) : Nat → Word → HostM Word
  | 0, c => .ok c
  | k + 1, c => do
    let c' ← mergeStep rom c 0#32 maxGap
    shiftWide rom k c'

/-- MERGE by any gap. A gap that fits `N` is one MERGE; "Longer shifts compose by" 40 R105 (92 D33), here out of
widest shifts first and the rest last (the split is DESIGN CHOICE, log 21). -/
def mergeBy (rom : Rom) (c b : Word) (gap : Nat) : HostM Word := do
  let c' ← shiftWide rom (wideShifts gap) c
  mergeStep rom c' b (gap - wideShifts gap * maxGap)

/-- `x^e mod P` for any exponent: one XNMODP where `e` fits `N`, else XNMODP and widest shifts of its result (40 R104,
R105; log 21). -/
def powerBy (rom : Rom) (e : Nat) : HostM Word := do
  let k ← issue rom .xnmodp 0#32 0#128 0#128 (BitVec.ofNat 32 (e - wideShifts e * maxGap))
  shiftWide rom (wideShifts e) (k.setWidth 32)

/-- One one-byte command `i` per byte, in order. With CRCB8 it is the naive procedure (44 R184). -/
def bytewise (rom : Rom) (i : Instr) (c : Word) : List Byte → HostM Word
  | [] => .ok c
  | d :: ds => do
    let c' ← crcStep rom i c (d.setWidth 128)
    bytewise rom i c' ds

/-- Command `i` on chunks of `m` bytes while at least `m` remain; the CRC and the bytes left. `fuel` bounds the
number of chunks. -/
def chunks (rom : Rom) (i : Instr) (m : Nat) : Nat → Word → List Byte → HostM (Word × List Byte)
  | 0, c, ds => .ok (c, ds)
  | fuel + 1, c, ds =>
    if m ≤ ds.length then do
      let c' ← crcStep rom i c (fromLe 128 (ds.take m))
      chunks rom i m fuel c' (ds.drop m)
    else .ok (c, ds)

/-- The naive procedure (44 R184). -/
def naiveProcedure (rom : Rom) (r : Word) (data : List Byte) : HostM Word := bytewise rom .crcb8 r data

/-- The head of the table procedure: CRCT8 until the address is a multiple of 4 (44 R185). -/
def tableHead (rom : Rom) : Nat → Word → List Byte → HostM (Word × List Byte)
  | _, c, [] => .ok (c, [])
  | addr, c, d :: ds =>
    if addr % 4 = 0 then .ok (c, d :: ds)
    else do
      let c' ← crcStep rom .crct8 c (d.setWidth 128)
      tableHead rom (addr + 1) c' ds

/-- The table procedure (44 R185). -/
def tableProcedure (rom : Rom) (addr : Nat) (r : Word) (data : List Byte) : HostM Word := do
  let (c, ds) ← tableHead rom addr r data
  let (c, ds) ← chunks rom .crct32 4 ds.length c ds
  bytewise rom .crct8 c ds

/-- A running CRC, the address of the next byte and the bytes left. -/
structure Cursor where
  crc : Word
  addr : Nat
  data : List Byte
deriving DecidableEq, Repr

/-- One conditional step over `m` bytes: taken if `cond` holds and `m` bytes remain (44 R186). -/
def stepIf (rom : Rom) (i : Instr) (m : Nat) (cond : Bool) (k : Cursor) : HostM Cursor :=
  if cond && decide (m ≤ k.data.length) then do
    let c ← crcStep rom i k.crc (fromLe 128 (k.data.take m))
    .ok ⟨c, k.addr + m, k.data.drop m⟩
  else .ok k

/-- The native scalar procedure: head, bulk and tail (44 R186). -/
def scalarProcedure (rom : Rom) (addr : Nat) (r : Word) (data : List Byte) : HostM Word := do
  let k : Cursor := ⟨r, addr, data⟩
  let k ← stepIf rom .crc8 1 (k.addr % 2 == 1) k
  let k ← stepIf rom .crc16 2 (k.addr / 2 % 2 == 1) k
  let k ← stepIf rom .crc32 4 (k.addr / 4 % 2 == 1) k
  let (c, ds) ← chunks rom .crc64 8 k.data.length k.crc k.data
  let k ← stepIf rom .crc32 4 true ⟨c, 0, ds⟩
  let k ← stepIf rom .crc16 2 true k
  let k ← stepIf rom .crc8 1 true k
  .ok k.crc

/-- `MERGE_BLOCK_BYTES = 24·m + 8·t`: `words` = m per stream (at least 1), `tailWords` = t (44 R187). -/
structure MergeShape where
  words : Nat
  tailWords : Nat
deriving DecidableEq, Repr

/-- The block length `Lb` in bytes (44 R187). -/
def MergeShape.bytes (m : MergeShape) : Nat := 24 * m.words + 8 * m.tailWords

/-- A chain of CRC64 over 8-byte words (44 R187). -/
def chain64 (rom : Rom) (c : Word) (ds : List Byte) : HostM Word := do
  let (c', _) ← chunks rom .crc64 8 ds.length c ds
  .ok c'

/-- `lo64(u)` (30 R68), as an operand. -/
def lo64 (u : QWord) : QWord := (u.setWidth 64).setWidth 128

/-- `x^gap` times a partial CRC, for `gap` of 33 and more, by CLMUL with the constant `x^(gap - 33)` and CRC64 of seed 0
(40 R108). -/
def shiftByClmul (rom : Rom) (c : Word) (gap : Nat) : HostM Word := do
  let k ← powerBy rom (gap - 33)
  let p ← issue rom .clmul 0#32 (zext128 c) (zext128 k) 0#32
  crcStep rom .crc64 0#32 (lo64 p)

/-- The three chains of one block: segments of `8m` bytes, the third run on through the tail (44 R187, C5, C8). -/
def mergeChains (rom : Rom) (m : MergeShape) (c : Word) (block : List Byte) : HostM (Word × Word × Word) := do
  let c0 ← chain64 rom c (block.take (8 * m.words))
  let c1 ← chain64 rom 0#32 ((block.drop (8 * m.words)).take (8 * m.words))
  let c2 ← chain64 rom 0#32 (block.drop (16 * m.words))
  .ok (c0, c1, c2)

/-- One block of the interleaved procedure, combined by CLMUL with exact constants (44 R187). -/
def mergeBlock (rom : Rom) (m : MergeShape) (c : Word) (block : List Byte) : HostM Word := do
  let (c0, c1, c2) ← mergeChains rom m c block
  let r0 ← shiftByClmul rom c0 (8 * (m.bytes - 8 * m.words))
  let r1 ← shiftByClmul rom c1 (8 * (m.bytes - 16 * m.words))
  .ok (r0 ^^^ r1 ^^^ c2)

/-- One block combined by MERGE: "Equivalently" of 44 R187. -/
def mergeBlockByMerge (rom : Rom) (m : MergeShape) (c : Word) (block : List Byte) : HostM Word := do
  let (c0, c1, c2) ← mergeChains rom m c block
  let t ← mergeBy rom c0 c1 (64 * m.words)
  mergeBy rom t c2 (64 * m.words + 64 * m.tailWords)

/-- Whole blocks of the interleaved procedure; the CRC and the bytes left. -/
def mergeBlocks (rom : Rom) (m : MergeShape) : Nat → Word → List Byte → HostM (Word × List Byte)
  | 0, c, ds => .ok (c, ds)
  | fuel + 1, c, ds =>
    if m.bytes ≤ ds.length then do
      let c' ← mergeBlock rom m c (ds.take m.bytes)
      mergeBlocks rom m fuel c' (ds.drop m.bytes)
    else .ok (c, ds)

/-- The interleaved three-stream merge procedure; a remainder shorter than a block goes to the native scalar
procedure (44 R187). -/
def mergeProcedure (rom : Rom) (m : MergeShape) (addr : Nat) (r : Word) (data : List Byte) : HostM Word := do
  let (c, ds) ← mergeBlocks rom m data.length r data
  scalarProcedure rom (addr + (data.length - ds.length)) c ds

/-- The loop of the fold procedure; the accumulator and the bytes left (44 R188). -/
def foldBlocks (rom : Rom) : Nat → QWord → List Byte → HostM (QWord × List Byte)
  | 0, acc, ds => .ok (acc, ds)
  | fuel + 1, acc, ds =>
    if 16 ≤ ds.length then do
      let acc' ← issue rom .fold 0#32 acc (fromLe 128 (ds.take 16)) 0#32
      foldBlocks rom fuel acc' (ds.drop 16)
    else .ok (acc, ds)

/-- The commands of the fold procedure, on data of at least 16 bytes (44 R188). -/
def foldPath (rom : Rom) (addr : Nat) (r : Word) (data : List Byte) : HostM Word := do
  let acc0 := fromLe 128 (data.take 16) ^^^ zext128 r
  let (acc, ds) ← foldBlocks rom data.length acc0 (data.drop 16)
  let c ← issue rom .foldred 0#32 acc 0#128 0#32
  scalarProcedure rom (addr + (data.length - ds.length)) (c.setWidth 32) ds

/-- The fold procedure with its minimum `FOLD_MIN_BLOCKS` (44 R188). A shorter input is not an error: "the host falls
back" (44 R189), to the native scalar procedure (DEDUCED, log 15). -/
def foldProcedure (rom : Rom) (foldMinBlocks addr : Nat) (r : Word) (data : List Byte) : HostM Word :=
  if 16 * foldMinBlocks ≤ data.length then foldPath rom addr r data else scalarProcedure rom addr r data

/-- The host's own parameters (00 R6, 44 R189, 92 D32; log 15). -/
structure HostParams where
  /-- `FOLD_MIN_BLOCKS`, at least 2. -/
  foldMinBlocks : Nat
  /-- `MERGE_BLOCK_BYTES`. -/
  merge : MergeShape
  /-- How many merge blocks make the merge procedure worth while: with the block length, its threshold (log 15). -/
  mergeMinBlocks : Nat
  /-- Which block procedure the host runs when the length reaches both thresholds (93 I13, log 15). -/
  preferMerge : Bool
deriving DecidableEq, Repr

/-- The length reaches the merge threshold (44 R189). -/
def HostParams.mergeReached (p : HostParams) (data : List Byte) : Bool :=
  decide (p.mergeMinBlocks * p.merge.bytes ≤ data.length)

/-- The length reaches the fold threshold (44 R188, R189). -/
def HostParams.foldReached (p : HostParams) (data : List Byte) : Bool :=
  decide (16 * p.foldMinBlocks ≤ data.length)

/-- The dispatcher with this block: a block procedure when the length reaches its threshold, else the native scalar
procedure (44 R189, 92 D26). Which one is free (93 I13). DESIGN CHOICE, log 15: where both thresholds are reached,
`preferMerge` chooses; where one alone is, that procedure runs whatever `preferMerge` says. -/
def dispatch (rom : Rom) (p : HostParams) (addr : Nat) (r : Word) (data : List Byte) : HostM Word :=
  match p.mergeReached data, p.foldReached data with
  | true, true =>
    if p.preferMerge then mergeProcedure rom p.merge addr r data
    else foldProcedure rom p.foldMinBlocks addr r data
  | true, false => mergeProcedure rom p.merge addr r data
  | false, true => foldProcedure rom p.foldMinBlocks addr r data
  | false, false => scalarProcedure rom addr r data

/-- `compute(seed, D) = ~crc_bytes(~seed, D)`: the public CRC (44 R180). -/
def compute (seed : Word) (data : List Byte) : Word := ~~~crcBytes (~~~seed) data

/-- `compute` through an engine: the host NOTs the seed and the raw result (44 R180). -/
def computeBy (engine : Word → List Byte → HostM Word) (seed : Word) (data : List Byte) : HostM Word := do
  let r ← engine (~~~seed) data
  .ok (~~~r)

/-- `compute` over a buffer in the host's memory, by the dispatcher (44 R180, R189, 20 R55). -/
def computeBuffer (rom : Rom) (p : HostParams) (mem : List Host.Cell) (seed : Word) (addr len : Nat) : HostM Word := do
  let data ← readBuffer mem addr len
  computeBy (dispatch rom p addr) seed data

/-- The public CRC of two shards put together from their public CRCs, the second from seed 0xFFFFFFFF, of `len`
bytes (44 R190): one MERGE below 512 MiB, and for a longer second shard the composition of `mergeBy` (92 D33; that
the host then composes at all, and how, is the model's choice, log 21). -/
def combineShards (rom : Rom) (pubA pubB : Word) (len : Nat) : HostM Word := do
  let r ← mergeBy rom (~~~pubA) (~~~pubB) (8 * len)
  .ok (~~~r)

/-- The harness buffer: byte `i` is `(i+1) mod 256` (44 R192). -/
def harnessBuffer (len : Nat) : List Byte := (List.range len).map fun i => BitVec.ofNat 8 (i + 1)

end Sys2Proof.Machine
end

