-- ==== Sys2Proof/Safety.lean ====
section
/-! DEFINITION. The terms claims are stated in: the machine's invariant, legal commands, safe states. -/

namespace Sys2Proof.Machine

/-- The invariant of the block: the ROM holds its content at every instant (10 R24) and INFLIGHT is at most
`MAX_INFLIGHT` long (10 R28). -/
structure State.Inv (s : State) : Prop where
  romContent : s.rom = Rom.content
  inflightBound : s.inflight.length ≤ Config.maxInflight

/-- The command's word is legal (30 R63). -/
def Command.Legal (c : Command) : Prop := ∃ i, decode c.cmd = .ok i

/-- A state with no illegal word accepted or offered: the premise "no ILLEGAL response" of 60 R202. -/
structure State.AllLegal (s : State) : Prop where
  inflight : ∀ c ∈ s.inflight, c.Legal
  offered : ∀ c ∈ s.offered, c.Legal

/-- `k` steps through ILLEGAL responses: the block itself goes on after one (60 R206, R207), from the state the
fault carries. -/
def runOn : Nat → State → State
  | 0, s => s
  | k + 1, s =>
    match step s with
    | .next t => runOn k t
    | .fault (.illegal _ t) => runOn k t
    | .refused _ => s

/-- The response the rules give a command, on a block with this ROM: its result, or ILLEGAL. -/
def responseOf (rom : Rom) (c : Command) : Response :=
  match answerOf rom c with
  | some r => .ok r
  | none => .illegal

/-- Every response the host has received, has coming, or will get, in order (20 R49): delivered, then produced, then
those of the commands in flight and of the commands offered. -/
def stream (s : State) : List Response :=
  s.delivered ++ s.responses ++ (s.inflight ++ s.offered).map (responseOf s.rom)

/-- `R` of one command, by the machine, on the constant ROM. -/
def reply (i : Instr) (s : Word) (a b : QWord) (n : Word) : Option QWord :=
  answerOf Rom.content ⟨encode i, s, a, b, n⟩

/-- `R[31:0]` of one command that does not read `B`, by the machine, on the constant ROM. -/
def wordReply (i : Instr) (s : Word) (a : QWord) (n : Word) : Option Word :=
  (reply i s a 0#128 n).map fun r => r.setWidth 32

/-- The command completes in every state in which it is the oldest in flight, with `STATUS = OK` and the result
`result` gives, and nothing else of the state changes: the command leaves INFLIGHT, its response joins the stream. -/
def CompletesWith (i : Instr) (result : Command → QWord) : Prop :=
  ∀ (s : State) (c : Command) (rest : List Command), s.inflight = c :: rest →
    exec i s = .next { s with inflight := rest, responses := s.responses ++ [.ok (result c)] }

/-- `CompletesWith` for a command that reads the ROM, in every state whose ROM holds its content. -/
def CompletesOnContentWith (i : Instr) (result : Command → QWord) : Prop :=
  ∀ (s : State) (c : Command) (rest : List Command), s.rom = Rom.content → s.inflight = c :: rest →
    exec i s = .next { s with inflight := rest, responses := s.responses ++ [.ok (result c)] }

/-- Two commands agree on every bit the opcode reads (30 R65). -/
structure AgreeOnReads (i : Instr) (c d : Command) : Prop where
  cmd : c.cmd = d.cmd
  s : ∀ j < (reads i).s, c.s.getLsbD j = d.s.getLsbD j
  a : ∀ j < (reads i).a, c.a.getLsbD j = d.a.getLsbD j
  b : ∀ j < (reads i).b, c.b.getLsbD j = d.b.getLsbD j
  n : ∀ j < (reads i).n, c.n.getLsbD j = d.n.getLsbD j

/-- `xs` XORed byte by byte into the first bytes of `ds` (42 R146). -/
def xorInto : List Byte → List Byte → List Byte
  | x :: xs, d :: ds => (x ^^^ d) :: xorInto xs ds
  | _, ds => ds

end Sys2Proof.Machine
end

