-- ==== Sys2Proof/Safety/Poly.lean ====
section
/-! DEFINITION. What the block's values mean as polynomials over GF(2) (spec 00 R9 to R12, 43 R162). Used by claims
only; the machine does not depend on it. -/

namespace Sys2Proof.Machine

open Polynomial

/-- A polynomial over GF(2) (00 R9). -/
abbrev Gf2Poly := Polynomial (ZMod 2)

/-- The generator polynomial `P(x)` (00 R10). -/
noncomputable def genP : Gf2Poly :=
  X ^ 32 + X ^ 28 + X ^ 27 + X ^ 26 + X ^ 25 + X ^ 23 + X ^ 22 + X ^ 20 + X ^ 19 + X ^ 18 + X ^ 14 + X ^ 13 + X ^ 11 +
    X ^ 10 + X ^ 9 + X ^ 8 + X ^ 6 + 1

/-- `poly32(r)`, the polynomial a 32-bit value represents: bit `i` is the coefficient of `x^(31-i)` (00 R11). -/
noncomputable def poly32 (r : Word) : Gf2Poly := ∑ i ∈ Finset.range 32, if r.getLsbD i then X ^ (31 - i) else 0

/-- `msg_w(d)`: a `w`-bit value as a message, bit 0 first and highest (00 R12). -/
noncomputable def msgBits {w : Nat} (d : BitVec w) : Gf2Poly :=
  ∑ i ∈ Finset.range w, if d.getLsbD i then X ^ (w - 1 - i) else 0

/-- `msg(D)`: a byte sequence as a message, the first byte first and highest (00 R12). -/
noncomputable def msgBytes : List Byte → Gf2Poly
  | [] => 0
  | d :: ds => msgBits d * X ^ (8 * ds.length) + msgBytes ds

/-- A value as a polynomial in the integer convention of `clmul`: bit `i` stands for `x^i` (00 R17). -/
noncomputable def polyInt {w : Nat} (v : BitVec w) : Gf2Poly :=
  ∑ i ∈ Finset.range w, if v.getLsbD i then X ^ i else 0

end Sys2Proof.Machine
end

