-- ==== Sys2Proof/Certificates/Slice0/Obligations.lean ====
section
/-! DEFINITION. The statements for the provers. Each docstring names the rule of spec/ it formalises. -/

open Sys2Proof Sys2Proof.Machine

section Encoding

/-- 30 R60 to R64, both directions over all 2^32 words: a word decodes to `i` exactly when `i` is well-formed and
`encode i` is that word. So the encoder's words are the only legal ones and no bit of one is dropped. -/
def Obligations.DecodeAndEncodeAgreeBothWays : Prop :=
  ∀ (w : Word) (i : Instr), decode w = .ok i ↔ (i.wellFormed = true ∧ encode i = w)

/-- 30 R63: a word is legal exactly when a row of the opcode table matches it, and at most one row matches any word.
TBLRD's row has mask 0xFFFFFCFF and match 4; every other row has a full mask and matches its opcode. -/
def Obligations.LegalExactlyWhenOneTableRowMatches : Prop :=
  (∀ w : Word, (∃ i, decode w = .ok i) ↔ ∃ r ∈ opcodeRows, w &&& r.mask = r.value) ∧
  (∀ w : Word, ∀ r ∈ opcodeRows, ∀ q ∈ opcodeRows, w &&& r.mask = r.value → w &&& q.mask = q.value → r = q) ∧
  (∀ i : Instr, i.wellFormed = true → ∃ r ∈ opcodeRows, encode i &&& r.mask = r.value ∧
    (i.opcode = 4 → r.mask = 0xFFFFFCFF#32 ∧ r.value = 4#32) ∧
    (i.opcode ≠ 4 → r.mask = 0xFFFFFFFF#32 ∧ r.value = BitVec.ofNat 32 i.opcode))

/-- 30 R64: the illegal words are those with an unassigned OPC, a `1` in RSV0 or RSV1, or a nonzero ROW with an
opcode other than TBLRD; they get the ILLEGAL response; the all-zero word is one. -/
def Obligations.IllegalWordsAreUnassignedReservedOrRowWords : Prop :=
  (∀ w : Word, (¬ ∃ i, decode w = .ok i) ↔
    (w.extractLsb' 0 5 ∉ [0x01#5, 0x02#5, 0x03#5, 0x04#5, 0x08#5, 0x09#5, 0x0A#5, 0x0B#5, 0x10#5, 0x11#5, 0x12#5,
        0x18#5, 0x19#5] ∨
      w.extractLsb' 5 3 ≠ 0#3 ∨ w.extractLsb' 10 22 ≠ 0#22 ∨
      (w.extractLsb' 8 2 ≠ 0#2 ∧ w.extractLsb' 0 5 ≠ 0x04#5))) ∧
  (∀ (s : State) (c : Command) (rest : List Command), s.inflight = c :: rest → (¬ ∃ i, decode c.cmd = .ok i) →
    respond s = .fault (.illegal c.cmd { s with inflight := rest, responses := s.responses ++ [.illegal] })) ∧
  ¬ ∃ i, decode 0x00000000#32 = .ok i

/-- 30 R61, 41 R120, 95 section 2.9: words written out from the encoding of 30 R60, and what they decode to. -/
def Obligations.WordsWrittenFromTheEncodingDecode : Prop :=
  decode 0b00000000000000000000000000000001#32 = .ok .crcb8 ∧
  decode 0b00000000000000000000000000001011#32 = .ok .crc64 ∧
  decode 0b00000000000000000000001100000100#32 = .ok (.tblrd 3) ∧
  decode 0b00000000000000000000000000010010#32 = .ok .merge ∧
  decode 0b00000000000000000000000000011001#32 = .ok .foldred ∧
  decode 0b00000000000000000000000100000001#32 = .error (.rowNotZero 1) ∧
  decode 0b10000000000000000000000000001011#32 = .error .reservedBit ∧
  decode 0b00000000000000000000000000000101#32 = .error (.unassignedOpcode 5)

/-- 30 R67, R69. In order:
every form of the rule assembles: for each instruction, whichever of the fields it reads are written, the transaction
is the instruction's word with the written values and 0 in every other field;
a value is decimal, or hexadecimal after `0x`;
a line assembles to a transaction exactly when its mnemonic is an instruction (for TBLRD, with the first operand's value
as the row) and its operands are values of the fields that the instruction reads; the transaction holds those values;
operands that are values of fields write each field they name, with a value that fits, and leave every other field 0;
the rule's example line is word 0x304 with A = 1.
Which lines do not assemble (a value too wide, a field out of order or not read) is the model's choice, log 17. -/
def Obligations.AssemblerWritesFieldsAndZerosTheRest : Prop :=
  (∀ (i : Instr) (rowText : List Char) (t : FieldTexts), i.wellFormed = true →
    (∀ row, i = .tblrd row → parseValue rowText = some row) → t.Fits i →
    assemble (formLine i rowText t) = some ⟨encode i, BitVec.ofNat 32 (textValue t.s), BitVec.ofNat 128 (textValue t.a),
      BitVec.ofNat 128 (textValue t.b), BitVec.ofNat 32 (textValue t.n)⟩) ∧
  (∀ x : Nat, parseValue (Nat.toDigits 10 x) = some x ∧ parseValue ('0' :: 'x' :: Nat.toDigits 16 x) = some x) ∧
  (∀ (line : List Char) (c : Command), assemble line = some c ↔
    ∃ (i : Instr) (items : List (List Char)) (vs : List (Char × Nat)),
      ((mnemonicInstr (splitLine line).1 = some i ∧ i.opcode ≠ 4 ∧ (splitLine line).2 = items) ∨
        (mnemonicInstr (splitLine line).1 = some (.tblrd 0) ∧ ∃ k row, (splitLine line).2 = k :: items ∧
          parseValue k = some row ∧ row < 4 ∧ i = .tblrd row)) ∧
      fieldValues (writableFields i) items = some vs ∧
      c = ⟨encode i, BitVec.ofNat 32 (fieldOr0 's' vs), BitVec.ofNat 128 (fieldOr0 'a' vs),
        BitVec.ofNat 128 (fieldOr0 'b' vs), BitVec.ofNat 32 (fieldOr0 'n' vs)⟩) ∧
  (∀ (i : Instr) (items : List (List Char)) (vs : List (Char × Nat)),
    fieldValues (writableFields i) items = some vs →
    (∀ item ∈ items, ∃ p ∈ writableFields i, ∃ v, item = p.1 :: '=' :: v ∧
      parseValue v = some (fieldOr0 p.1 vs) ∧ fieldOr0 p.1 vs < 2 ^ p.2) ∧
    ∀ f : Char, (∀ v, (f :: '=' :: v) ∉ items) → fieldOr0 f vs = 0) ∧
  (∀ i : Instr, ∀ m, mnemonicInstr m = some i ↔ (i.rowValue = 0 ∧ m = (mnemonicOf i).toList)) ∧
  assemble "TBLRD 3, a=0x01".toList = some ⟨0x00000304#32, 0#32, 1#128, 0#128, 0#32⟩ ∧
  assemble "MERGE s=0x12345678, n=40".toList = some ⟨0x00000012#32, 0x12345678#32, 0#128, 0#128, 40#32⟩ ∧
  (∀ (i : Instr) (s n : Word) (a b : QWord),
    assembleFields i [('s', s.toNat), ('a', a.toNat), ('b', b.toNat), ('n', n.toNat)] = ⟨encode i, s, a, b, n⟩) ∧
  (∀ i : Instr, assembleFields i [] = ⟨encode i, 0#32, 0#128, 0#128, 0#32⟩)

end Encoding

section Machine

/-- A step whose event is to answer, with a legal word in the oldest transaction, is `exec` of the decoded
instruction on the state with the schedule moved on; and the word `withFetchWord` places is what the next step runs.
That a used-up schedule answers is the model's order, log 2; `withFetchWord` is the model's, log 8. -/
def Obligations.StepRunsTheDecodedCommand : Prop :=
  (∀ (s : State) (c : Command) (rest : List Command) (i : Instr), s.inflight = c :: rest → decode c.cmd = .ok i →
    (s.schedule = [] → step s = exec i s) ∧
    (∀ es, s.schedule = .respond :: es → step s = exec i { s with schedule := es })) ∧
  (∀ (s : State) (nbits w : Nat) (i : Instr), decodeTableWord nbits w = some i →
    step (s.withFetchWord nbits w) = exec i (s.withFetchWord nbits w).advance ∧
    ∃ c rest, (s.withFetchWord nbits w).inflight = c :: rest ∧ decode c.cmd = .ok i)

/-- 60 R202, R206: an illegal word faults as `Illegal(cmd)` whatever the operand fields hold. The state the fault
carries has the ILLEGAL response in the command's place in the stream and is otherwise the state before; the response
has STATUS 1 and no result; from that state on commands run normally. -/
def Obligations.IllegalWordFaultsAndOnlyTakesItsPlace : Prop :=
  (∀ (s : State) (w sOp n : Word) (a b : QWord) (rest : List Command),
    s.inflight = ⟨w, sOp, a, b, n⟩ :: rest → (¬ ∃ i, decode w = .ok i) → s.nextEvent = .respond →
    step s = .fault (.illegal w
      { s with inflight := rest, responses := s.responses ++ [.illegal], schedule := s.schedule.tail })) ∧
  (∀ (s t : State) (w : Word) (d : Command) (rest : List Command) (i : Instr), step s = .fault (.illegal w t) →
    t.inflight = d :: rest → decode d.cmd = .ok i →
    ∃ r, exec i t = .next { t with inflight := rest, responses := t.responses ++ [.ok r] } ∧
      answerOf s.rom d = some r) ∧
  Response.illegal.status = 1#2 ∧ Response.illegal.result = none

/-- 60 R207: after an ILLEGAL response the next command is answered as if the illegal one had not been issued. -/
def Obligations.AfterIllegalTheNextCommandIsUnaffected : Prop :=
  ∀ (s t : State) (c d : Command) (rest : List Command),
    s.inflight = c :: d :: rest → (¬ ∃ i, decode c.cmd = .ok i) → (∃ i, decode d.cmd = .ok i) →
    respond s = .fault (.illegal c.cmd t) →
    ∃ r, respond t = .next { s with inflight := rest, responses := s.responses ++ [.illegal, .ok r] } ∧
      respond { s with inflight := d :: rest } =
        .next { s with inflight := rest, responses := s.responses ++ [.ok r] }

/-- 60 R200, R201: a legal command always completes with STATUS = OK, in every state and with every operand, and
nothing else changes; a response's STATUS is 0 with a result or 1 without one, 2 and 3 are never produced. -/
def Obligations.LegalCommandAlwaysCompletesWithOk : Prop :=
  (∀ (s : State) (c : Command) (rest : List Command) (i : Instr), s.inflight = c :: rest → decode c.cmd = .ok i →
    ∃ r, exec i s = .next { s with inflight := rest, responses := s.responses ++ [.ok r] } ∧
      (Response.ok r).status = 0#2 ∧ (Response.ok r).result = some r) ∧
  ∀ r : Response, (r.status = 0#2 ∧ ∃ v, r.result = some v) ∨ (r.status = 1#2 ∧ r.result = none)

/-- 10 R28: the block accepts the oldest command offered when INFLIGHT has room; when it is full the port holds the
host and only the schedule moves on; reset leaves INFLIGHT empty. -/
def Obligations.AcceptTakesTheOldestOfferedWhenThereIsRoom : Prop :=
  (∀ (s : State) (c : Command) (rest : List Command), s.nextEvent = .accept → s.offered = c :: rest →
    (s.inflight.length < Config.maxInflight → step s =
      .next { s with inflight := s.inflight ++ [c], offered := rest, schedule := s.schedule.tail }) ∧
    (Config.maxInflight ≤ s.inflight.length → step s = .next { s with schedule := s.schedule.tail })) ∧
  1 ≤ Config.maxInflight ∧ State.reset.inflight = []

/-- 10 R26, 20 R49: handing over moves the oldest response, that one alone, to the host. With no response to hand
over, none offered to accept, none in flight to answer, and when time passes, only the schedule moves on. The host's
side and the schedule are the model's, logs 1 and 2. -/
def Obligations.PortEventsMoveTheOldestItemOrNothing : Prop :=
  ∀ s : State,
    (∀ (r : Response) (rest : List Response), s.nextEvent = .deliver → s.responses = r :: rest →
      step s = .next { s with responses := rest, delivered := s.delivered ++ [r], schedule := s.schedule.tail }) ∧
    (s.nextEvent = .deliver → s.responses = [] → step s = .next { s with schedule := s.schedule.tail }) ∧
    (s.nextEvent = .accept → s.offered = [] → step s = .next { s with schedule := s.schedule.tail }) ∧
    (s.nextEvent = .respond → s.inflight = [] → step s = .next { s with schedule := s.schedule.tail }) ∧
    (s.nextEvent = .wait → step s = .next { s with schedule := s.schedule.tail })

/-- 20 R49, 70 R242, R243: whatever the schedule does short of a reset, a step, one that faults too, leaves the whole
stream of responses as it is: one response per command, in the order the commands were accepted, each the function
of its own command. -/
def Obligations.EveryStepKeepsTheResponseStream : Prop :=
  ∀ s : State, s.nextEvent ≠ .reset →
    (∀ t, step s = .next t → stream t = stream s) ∧
    (∀ w t, step s = .fault (.illegal w t) → stream t = stream s)

/-- 70 R244: every accepted or offered command gets its response, unless reset intervenes; the stream the host then
has is the one 20 R49 gives. The bound is the model's (log 2, log 3): once the schedule is used up, a step answers if
it can and else accepts. -/
def Obligations.EveryCommandIsAnsweredWithoutReset : Prop :=
  ∀ s : State, Event.reset ∉ s.schedule →
    let t := runOn (s.schedule.length + s.inflight.length + 2 * s.offered.length) s
    t.inflight = [] ∧ t.offered = [] ∧ t.delivered ++ t.responses = stream s

/-- 10 R24, R28: every step, one that faults too, keeps the ROM at its content and INFLIGHT within MAX_INFLIGHT. -/
def Obligations.EveryStepKeepsTheBlockInvariant : Prop :=
  ∀ s : State, s.Inv →
    (∀ t, step s = .next t → t.Inv) ∧ (∀ w t, step s = .fault (.illegal w t) → t.Inv)

/-- 10 R33: the invariant holds right after reset. -/
def Obligations.BlockInvariantHoldsAtReset : Prop := State.reset.Inv

/-- 10 R24: no step writes the ROM, in any state; its content is the value of 10 R21, R22 and R23, after reset too. -/
def Obligations.RomIsReadOnlyWithItsContentFromReset : Prop :=
  (∀ s t : State, step s = .next t → t.rom = s.rom) ∧
  (∀ (s t : State) (w : Word), step s = .fault (.illegal w t) → t.rom = s.rom) ∧
  (∀ i : Byte, State.reset.rom.entry 0 i = crcByte 0#32 i) ∧
  (∀ (k : Fin 3) (i : Byte), State.reset.rom.entry k.succ i =
    (State.reset.rom.entry k.castSucc i >>> 8) ^^^
      State.reset.rom.entry 0 ((State.reset.rom.entry k.castSucc i).setWidth 8)) ∧
  State.reset.rom.k0 = mulxn onePoly 159 ∧ State.reset.rom.k1 = mulxn onePoly 95

/-- 70 R230: reset empties INFLIGHT, the commands in it get no response, and undelivered responses are dropped. That
the host's side stays is the model's reading, log 12. -/
def Obligations.ResetDropsAcceptedCommandsAndUndeliveredResponses : Prop :=
  ∀ s : State, s.nextEvent = .reset →
    step s = .next { s with inflight := [], responses := [], schedule := s.schedule.tail }

/-- 70 R231: right after reset the block accepts a command at once and gives it the result of its rule, whatever
follows in the schedule. -/
def Obligations.AfterResetACommandIsAcceptedAndAnsweredAtOnce : Prop :=
  ∀ (c : Command) (es : List Event),
    step { State.reset with offered := [c], schedule := .accept :: .respond :: es } =
      .next { State.reset with inflight := [c], schedule := .respond :: es } ∧
    ∀ i, decode c.cmd = .ok i → ∃ r, answerOf Rom.content c = some r ∧
      step { State.reset with inflight := [c], schedule := .respond :: es } =
        exec i { State.reset with inflight := [c], schedule := es } ∧
      exec i { State.reset with inflight := [c], schedule := es } =
        .next { State.reset with responses := [.ok r], schedule := es }

/-- 10 R20, 20 R47: a command's result is a function of its word, its operand fields and the ROM alone; no other part
of the state, no other command in flight and no earlier response has a say in it. So issuing it twice gives the same
response twice. -/
def Obligations.ResultDependsOnCommandAndRomAlone : Prop :=
  ∀ (rom : Rom) (c : Command) (i : Instr), decode c.cmd = .ok i →
    ∃ r, (∀ (s : State) (rest : List Command), s.rom = rom → s.inflight = c :: rest →
        exec i s = .next { s with inflight := rest, responses := s.responses ++ [.ok r] }) ∧
      ∀ (s : State) (rest : List Command), s.rom = rom → s.inflight = c :: c :: rest →
        ∃ t, exec i s = .next t ∧
          exec i t = .next { s with inflight := rest, responses := s.responses ++ [.ok r, .ok r] }

/-- 30 R65: fields a command does not read, and bits above the width it reads, change nothing; the result has the
width of the table, the bits of `R` above it being 0. -/
def Obligations.UnreadBitsAreIgnoredAndResultsHaveTheirWidth : Prop :=
  ∀ (s : State) (c d : Command) (rest : List Command) (i : Instr),
    decode c.cmd = .ok i → AgreeOnReads i c d →
    ∃ r, exec i { s with inflight := c :: rest } =
        .next { s with inflight := rest, responses := s.responses ++ [.ok r] } ∧
      exec i { s with inflight := d :: rest } =
        .next { s with inflight := rest, responses := s.responses ++ [.ok r] } ∧
      r.toNat < 2 ^ resultWidth i

/-- 60 R201, R202: in a state with no illegal word accepted or offered every step answers a next state, and that
state has none either. -/
def Obligations.StatesWithoutIllegalWordsNeverFault : Prop :=
  ∀ s : State, s.AllLegal → ∃ t, step s = .next t ∧ t.AllLegal

end Machine

section Primitives

/-- 00 R10, R11: bit `i` of the reflected form is the coefficient of x^(31-i), with x^32 implicit; the normal form
0x1EDC6F41 gives the same polynomial; 0x80000000 represents 1 and 1 represents x^31. -/
def Obligations.ReflectedFormRepresentsTheGenerator : Prop :=
  genP = Polynomial.X ^ 32 + poly32 castagnoli ∧
  genP = Polynomial.X ^ 32 + polyInt 0x1EDC6F41#32 ∧
  poly32 0x80000000#32 = 1 ∧ poly32 0x00000001#32 = Polynomial.X ^ 31

/-- 00 R13: `mulx` multiplies a represented polynomial by x modulo P, and `mulxn` by x^n. -/
def Obligations.MulxMultipliesByXModuloP : Prop :=
  (∀ r : Word, mulx r = if r.getLsbD 0 = true then (r >>> 1) ^^^ 0x82F63B78#32 else r >>> 1) ∧
  (∀ r : Word, mulxn r 0 = r ∧ ∀ n, mulxn r (n + 1) = mulx (mulxn r n)) ∧
  (∀ r : Word, poly32 (mulx r) = (Polynomial.X * poly32 r) %ₘ genP) ∧
  (∀ (r : Word) (n : Nat), poly32 (mulxn r n) = (Polynomial.X ^ n * poly32 r) %ₘ genP)

/-- 00 R14, R15: the raw remainder of a byte sequence is the remainder of the seed and the message modulo P. -/
def Obligations.CrcBytesIsTheRemainderOfSeedAndMessage : Prop :=
  (∀ (r : Word) (d : Byte), crcByte r d = mulxn (r ^^^ d.setWidth 32) 8) ∧
  (∀ r : Word, crcBytes r [] = r) ∧
  (∀ (r : Word) (d : Byte) (ds : List Byte), crcBytes r (d :: ds) = crcBytes (crcByte r d) ds) ∧
  (∀ (r : Word) (d : Byte),
    poly32 (crcByte r d) = (poly32 r * Polynomial.X ^ 8 + msgBits d * Polynomial.X ^ 32) %ₘ genP) ∧
  ∀ (r : Word) (ds : List Byte),
    poly32 (crcBytes r ds) =
      (poly32 r * Polynomial.X ^ (8 * ds.length) + msgBytes ds * Polynomial.X ^ 32) %ₘ genP

/-- 00 R16, 20 R41, R42: little-endian assembly and its inverse, for every width in bytes; the message of a value's
bytes is the message of its bits, bit 0 first. -/
def Obligations.LittleEndianBytesKeepTheMessage : Prop :=
  (∀ (m j : Nat) (v : BitVec (8 * m)), j < m → (leBytes v m)[j]? = some (v.extractLsb' (8 * j) 8)) ∧
  (∀ (m : Nat) (v : BitVec (8 * m)), (leBytes v m).length = m ∧ fromLe (8 * m) (leBytes v m) = v) ∧
  (∀ ds : List Byte, leBytes (fromLe (8 * ds.length) ds) ds.length = ds) ∧
  ∀ (m : Nat) (v : BitVec (8 * m)), msgBytes (leBytes v m) = msgBits v

/-- 00 R17: bit `m` of the carry-less product is the XOR over `i + j = m` of `a[i] & b[j]`, bit 127 is 0, and the
product is the product of polynomials over GF(2). -/
def Obligations.ClmulIsTheProductOverGf2 : Prop :=
  ∀ a b : DWord,
    (∀ m < 128, (clmul a b).getLsbD m =
      (List.range 64).foldl (fun acc j => acc ^^ (decide (j ≤ m) && a.getLsbD (m - j) && b.getLsbD j)) false) ∧
    (clmul a b).getLsbD 127 = false ∧
    polyInt (clmul a b) = polyInt a * polyInt b

/-- 10 R23: the fold constants are x^159 and x^95 modulo P, with the values the rule derives. -/
def Obligations.FoldConstantsAreTheirPowers : Prop :=
  Rom.content.k0 = 0xF20C0DFE#32 ∧ Rom.content.k1 = 0x493C7D27#32 ∧
  poly32 Rom.content.k0 = (Polynomial.X ^ 159) %ₘ genP ∧ poly32 Rom.content.k1 = (Polynomial.X ^ 95) %ₘ genP ∧
  reply .xnmodp 0#32 0#128 0#128 159#32 = some (zext128 Rom.content.k0) ∧
  reply .xnmodp 0#32 0#128 0#128 95#32 = some (zext128 Rom.content.k1)

/-- 41 R124: the table laws. -/
def Obligations.TableEntriesObeyTheTableLaws : Prop :=
  (∀ i : Byte, Rom.content.entry 0 i = crcByte 0#32 i) ∧
  (∀ (k : Fin 4) (i : Byte), Rom.content.entry k i = crcBytes 0#32 (i :: List.replicate k 0#8) ∧
    Rom.content.entry k i = mulxn (Rom.content.entry 0 i) (8 * k)) ∧
  (∀ i j : Byte, Rom.content.entry 0 (i ^^^ j) = Rom.content.entry 0 i ^^^ Rom.content.entry 0 j) ∧
  ∀ (r : Word) (d : Byte),
    crcByte r d = (r >>> 8) ^^^ Rom.content.entry 0 ((r ^^^ d.setWidth 32).setWidth 8)

end Primitives

section Commands

/-- 41 R120: TBLRD. -/
def Obligations.TblrdReadsOneTableEntry : Prop :=
  (∀ k : Fin 4, decode (0x00000004#32 ||| (BitVec.ofNat 32 k <<< 8)) = .ok (.tblrd k)) ∧
  (∀ k : Fin 4, CompletesOnContentWith (.tblrd k) fun c =>
    ((Rom.content.entry k (c.a.setWidth 8)).setWidth 128)) ∧
  (∀ k : Fin 4, reply (.tblrd k) 0#32 0#128 0#128 0#32 = some 0#128) ∧
  (∀ (k : Fin 4) (i : Byte), reply (.tblrd k) 0#32 (i.setWidth 128) 0#128 0#32 =
    some ((crcBytes 0#32 (i :: List.replicate k 0#8)).setWidth 128)) ∧
  reply (.tblrd 0) 0#32 0x80#128 0#128 0#32 = some 0x82F63B78#128 ∧
  reply (.tblrd 3) 0#32 0x01#128 0#128 0#32 = some 0xDD45AAB8#128

/-- A TBLRD term whose row is none of the four is no instruction and is refused by name (the model's, log 10). -/
def Obligations.TblrdOfNoRowIsRefused : Prop :=
  ∀ (s : State) (row : Nat), 4 ≤ row →
    exec (.tblrd row) s = .refused (.noSuchTableRow row) ∧ ∀ w, decode w ≠ .ok (.tblrd row)

/-- 41 R121: CRCB8. -/
def Obligations.CrcbEightStepsOneByteBitSerially : Prop :=
  decode 0x00000001#32 = .ok .crcb8 ∧
  CompletesWith .crcb8 (fun c => (mulxn (c.s ^^^ (c.a.setWidth 8).setWidth 32) 8).setWidth 128) ∧
  reply .crcb8 0#32 0#128 0#128 0#32 = some 0#128 ∧
  (∀ i : Byte, reply .crcb8 0#32 (i.setWidth 128) 0#128 0#32 = some ((Rom.content.entry 0 i).setWidth 128)) ∧
  reply .crcb8 1#32 0#128 0#128 0#32 = some 0xF26B8303#128 ∧
  (∀ (s : Word) (d : Byte), reply .crcb8 s (d.setWidth 128) 0#128 0#32 =
    some (((s >>> 8) ^^^ mulxn ((s ^^^ d.setWidth 32) &&& 0xFF#32) 8).setWidth 128)) ∧
  reply .crcb8 0xFFFFFFFF#32 0x31#128 0#128 0#32 = some 0x6F0A661C#128

/-- 41 R122: CRCT8, and that it equals CRCB8 for every seed and byte. -/
def Obligations.CrctEightLooksUpOneByteAndEqualsCrcbEight : Prop :=
  decode 0x00000002#32 = .ok .crct8 ∧
  CompletesOnContentWith .crct8 (fun c =>
    ((c.s >>> 8) ^^^ Rom.content.entry 0 ((c.s ^^^ (c.a.setWidth 8).setWidth 32).setWidth 8)).setWidth 128) ∧
  CompletesOnContentWith .crct8 (fun c => (crcByte c.s (c.a.setWidth 8)).setWidth 128) ∧
  (∀ (s n : Word) (a b : QWord), reply .crct8 s a b n = reply .crcb8 s a b n) ∧
  reply .crct8 0x9F787F65#32 0x39#128 0#128 0#32 = some 0x1CF96D7C#128

/-- 41 R123: CRCT32, and that it is the CRC of the four bytes in stream order. -/
def Obligations.CrctThirtyTwoSlicesFourBytes : Prop :=
  decode 0x00000003#32 = .ok .crct32 ∧
  CompletesOnContentWith .crct32 (fun c =>
    let x : Word := c.s ^^^ c.a.setWidth 32
    (Rom.content.entry 3 (x.extractLsb' 0 8) ^^^ Rom.content.entry 2 (x.extractLsb' 8 8) ^^^
      Rom.content.entry 1 (x.extractLsb' 16 8) ^^^ Rom.content.entry 0 (x.extractLsb' 24 8)).setWidth 128) ∧
  CompletesOnContentWith .crct32 (fun c =>
    (crcBytes c.s [c.a.extractLsb' 0 8, c.a.extractLsb' 8 8, c.a.extractLsb' 16 8, c.a.extractLsb' 24 8]).setWidth 128) ∧
  (∀ s : Word, reply .crct32 s (s.setWidth 128) 0#128 0#32 = some 0#128) ∧
  reply .crct32 0#32 0x80000000#128 0#128 0#32 = some 0x82F63B78#128 ∧
  reply .crct32 0#32 1#128 0#128 0#32 = some 0xDD45AAB8#128 ∧
  reply .crct32 0xFFFFFFFF#32 0x34333231#128 0#128 0#32 = some 0x09C50B11#128

/-- 42 R140: CRC8. -/
def Obligations.CrcEightStepsOneByte : Prop :=
  decode 0x00000008#32 = .ok .crc8 ∧
  CompletesWith .crc8 (fun c => (crcByte c.s (c.a.extractLsb' 0 8)).setWidth 128) ∧
  reply .crc8 0#32 0#128 0#128 0#32 = some 0#128 ∧
  reply .crc8 0#32 1#128 0#128 0#32 = some 0xF26B8303#128 ∧
  (∀ (s n : Word) (a b : QWord), reply .crc8 s a b n = reply .crcb8 s a b n ∧
    reply .crc8 s a b n = reply .crct8 s a b n) ∧
  reply .crc8 0x12345678#32 0x9A#128 0#128 0#32 = some 0x0219ECBB#128

/-- 42 R141: CRC16. -/
def Obligations.CrcSixteenStepsTwoBytes : Prop :=
  decode 0x00000009#32 = .ok .crc16 ∧
  CompletesWith .crc16 (fun c => (crcBytes c.s [c.a.extractLsb' 0 8, c.a.extractLsb' 8 8]).setWidth 128) ∧
  reply .crc16 0#32 1#128 0#128 0#32 = some ((Rom.content.entry 1 1#8).setWidth 128) ∧
  reply .crc16 0#32 1#128 0#128 0#32 = some 0x13A29877#128 ∧
  reply .crc16 0xFFFFFFFF#32 0xFFFF#128 0#128 0#32 = some 0x0000FFFF#128 ∧
  reply .crc16 0xFFFFFFFF#32 0x3231#128 0#128 0#32 = some 0x8CAA3B9F#128

/-- 42 R142: CRC32. -/
def Obligations.CrcThirtyTwoStepsFourBytes : Prop :=
  decode 0x0000000A#32 = .ok .crc32 ∧
  CompletesWith .crc32 (fun c =>
    (crcBytes c.s [c.a.extractLsb' 0 8, c.a.extractLsb' 8 8, c.a.extractLsb' 16 8, c.a.extractLsb' 24 8]).setWidth 128) ∧
  (∀ s : Word, reply .crc32 s (s.setWidth 128) 0#128 0#32 = some 0#128) ∧
  reply .crc32 0#32 1#128 0#128 0#32 = some 0xDD45AAB8#128 ∧
  reply .crc32 0xDEADBEEF#32 0#128 0#128 0#32 = some 0x09991D14#128 ∧
  (∀ (s n : Word) (a b : QWord), reply .crc32 s a b n = reply .crct32 s a b n) ∧
  reply .crc32 0xFFFFFFFF#32 0x34333231#128 0#128 0#32 = some 0x09C50B11#128

/-- 42 R143: CRC64. -/
def Obligations.CrcSixtyFourStepsEightBytes : Prop :=
  decode 0x0000000B#32 = .ok .crc64 ∧
  CompletesWith .crc64 (fun c =>
    (crcBytes c.s [c.a.extractLsb' 0 8, c.a.extractLsb' 8 8, c.a.extractLsb' 16 8, c.a.extractLsb' 24 8,
      c.a.extractLsb' 32 8, c.a.extractLsb' 40 8, c.a.extractLsb' 48 8, c.a.extractLsb' 56 8]).setWidth 128) ∧
  reply .crc64 0#32 1#128 0#128 0#32 = some 0x493C7D27#128 ∧
  reply .crc64 0#32 1#128 0#128 0#32 = some (zext128 Rom.content.k1) ∧
  reply .crc64 0#32 0x8000000000000000#128 0#128 0#32 = some 0x82F63B78#128 ∧
  reply .crc64 0xFFFFFFFF#32 0#128 0#128 0#32 = some 0x73D74D75#128 ∧
  reply .crc64 0xFFFFFFFF#32 0xFFFFFFFFFFFFFFFF#128 0#128 0#32 = some 0xB798B438#128 ∧
  reply .crc64 0xFFFFFFFF#32 0x3837363534333231#128 0#128 0#32 = some 0x9F787F65#128

/-- 40 R100: XNMODP gives the result of the `N` serial steps, for every `N`, whatever the method. -/
def Obligations.XnmodpIsTheSerialPowerForEveryExponent : Prop :=
  decode 0x00000010#32 = .ok .xnmodp ∧
  CompletesWith .xnmodp (fun c => (mulxn 0x80000000#32 c.n.toNat).setWidth 128) ∧
  (∀ n : Word, ∃ r, wordReply .xnmodp 0#32 0#128 n = some r ∧ poly32 r = (Polynomial.X ^ n.toNat) %ₘ genP) ∧
  (∀ n : Word, n.toNat ≤ 31 →
    reply .xnmodp 0#32 0#128 0#128 n = some ((0x80000000#32 >>> n.toNat).setWidth 128)) ∧
  reply .xnmodp 0#32 0#128 0#128 32#32 = some 0x82F63B78#128 ∧
  reply .xnmodp 0#32 0#128 0#128 33#32 = some 0x417B1DBC#128 ∧
  reply .xnmodp 0#32 0#128 0#128 0xFFFFFFFF#32 = some 0x40000000#128 ∧
  reply .xnmodp 0#32 0#128 0#128 95#32 = some 0x493C7D27#128 ∧
  reply .xnmodp 0#32 0#128 0#128 159#32 = some 0xF20C0DFE#128

/-- 40 R101: CLMUL. -/
def Obligations.ClmulGivesTheFullProduct : Prop :=
  decode 0x00000011#32 = .ok .clmul ∧
  CompletesWith .clmul (fun c => clmul (c.a.extractLsb' 0 64) (c.b.extractLsb' 0 64)) ∧
  (∀ a b : QWord, reply .clmul 0#32 0#128 b 0#32 = some 0#128 ∧ reply .clmul 0#32 a 0#128 0#32 = some 0#128) ∧
  (∀ b : DWord, reply .clmul 0#32 1#128 (b.setWidth 128) 0#32 = some (b.setWidth 128)) ∧
  (∀ (s n : Word) (a b : QWord), ∃ r, reply .clmul s a b n = some r ∧ r.getLsbD 127 = false ∧
    reply .clmul s b a n = some r) ∧
  reply .clmul 0#32 0x8000000000000000#128 0x8000000000000000#128 0#32 =
    some 0x40000000000000000000000000000000#128 ∧
  reply .clmul 0#32 0xFFFFFFFFFFFFFFFF#128 0xFFFFFFFFFFFFFFFF#128 0#32 =
    some 0x55555555555555555555555555555555#128 ∧
  reply .clmul 0#32 0x7#128 0x5#128 0#32 = some 0x1B#128

/-- 40 R102: MERGE gives `mulxn(S, N) ^ A[31:0]` for every gap, whatever the method. -/
def Obligations.MergeShiftsTheFirstCrcByEveryGap : Prop :=
  decode 0x00000012#32 = .ok .merge ∧
  CompletesWith .merge (fun c => (mulxn c.s c.n.toNat ^^^ c.a.setWidth 32).setWidth 128) ∧
  (∀ (s n : Word) (a : QWord), ∃ r, wordReply .merge s a n = some r ∧
    poly32 r = (poly32 s * Polynomial.X ^ n.toNat + poly32 (a.setWidth 32)) %ₘ genP) ∧
  (∀ s b : Word, wordReply .merge s (b.setWidth 128) 0#32 = some (s ^^^ b)) ∧
  (∀ (s : Word) (m : Nat), 8 * m < 2 ^ 32 →
    wordReply .merge s 0#128 (BitVec.ofNat 32 (8 * m)) = some (crcBytes s (List.replicate m 0#8))) ∧
  (∀ b n : Word, wordReply .merge 0#32 (b.setWidth 128) n = some b) ∧
  reply .merge 0x12345678#32 0#128 0#128 8#32 = some 0xFB533894#128 ∧
  reply .merge 0x09C50B11#32 0xC6C713ED#128 0#128 40#32 = some 0x1CF96D7C#128

/-- 43 R160: FOLD. -/
def Obligations.FoldMultipliesTheLanesAndXorsTheBlock : Prop :=
  decode 0x00000018#32 = .ok .fold ∧
  CompletesOnContentWith .fold (fun c =>
    clmul (c.a.extractLsb' 0 64) 0xF20C0DFE#64 ^^^ clmul (c.a.extractLsb' 64 64) 0x493C7D27#64 ^^^ c.b) ∧
  (∀ b : QWord, reply .fold 0#32 0#128 b 0#32 = some b) ∧
  reply .fold 0#32 1#128 0#128 0#32 = some 0xF20C0DFE#128 ∧
  reply .fold 0#32 0x10000000000000000#128 0#128 0#32 = some 0x493C7D27#128 ∧
  (∀ (s n : Word) (a b : QWord), ∃ r, reply .fold s a b n = some r ∧
    r.extractLsb' 95 33 = b.extractLsb' 95 33) ∧
  reply .fold 0#32 0xFFFFFFFFFFFFFFFFFFFFFFFFFFFFFFFF#128 0xFFFFFFFFFFFFFFFFFFFFFFFFFFFFFFFF#128 0#32 =
    some 0xFFFFFFFF96EFD048FFFFFFFF96EFD048#128 ∧
  reply .fold 0#32 0x100F0E0D0C0B0A0908070605FBFCFDFE#128 0x201F1E1D1C1B1A191817161514131211#128 0#32 =
    some 0x201F1E1D1F19D4052EA4FC61EF9F055A#128

/-- 43 R161: FOLDRED, the two CRC64 steps in one, equal to the CRC of the sixteen bytes from seed 0. -/
def Obligations.FoldredReducesTheAccumulator : Prop :=
  decode 0x00000019#32 = .ok .foldred ∧
  CompletesWith .foldred (fun c => (crcBytes 0#32 (leBytes c.a 16)).setWidth 128) ∧
  (∀ a : QWord, wordReply .foldred 0#32 a 0#32 =
    (wordReply .crc64 0#32 a 0#32).bind fun r => wordReply .crc64 r (a >>> 64) 0#32) ∧
  reply .foldred 0#32 0#128 0#128 0#32 = some 0#128 ∧
  reply .foldred 0#32 1#128 0#128 0#32 = some 0xF20C0DFE#128 ∧
  reply .foldred 0#32 0x10000000000000000#128 0#128 0#32 = some 0x493C7D27#128 ∧
  reply .foldred 0#32 0xFFFFFFFF#128 0#128 0#32 = some 0xBD8F6515#128 ∧
  reply .foldred 0#32 0xFFFFFFFFFFFFFFFFFFFFFFFFFFFFFFFF#128 0#128 0#32 = some 0xAD5FD6FA#128 ∧
  reply .foldred 0#32 0x302F2E2D3E9291A2A492F1A36A16D5F6#128 0#128 0#32 = some 0x667C2A1D#128

end Commands

section CommandLaws

/-- 40 R104: powers add, through the machine: MERGE of XNMODP(a) by b is XNMODP(a + b). -/
def Obligations.PowersAdd : Prop :=
  (∀ a b : Word, a.toNat + b.toNat < 2 ^ 32 →
    ∃ x y, wordReply .xnmodp 0#32 0#128 a = some x ∧ wordReply .xnmodp 0#32 0#128 (a + b) = some y ∧
      wordReply .merge x 0#128 b = some y) ∧
  ∀ n : Word, n.toNat + 1 < 2 ^ 32 →
    ∃ x, wordReply .xnmodp 0#32 0#128 n = some x ∧ wordReply .xnmodp 0#32 0#128 (n + 1#32) = some (mulx x)

/-- 40 R105: MERGE is linear over XOR in both partial CRCs, and its shifts add. -/
def Obligations.MergeIsLinearAndItsShiftsAdd : Prop :=
  (∀ (s t g : Word) (a b : QWord), ∃ x y, wordReply .merge s a g = some x ∧ wordReply .merge t b g = some y ∧
    wordReply .merge (s ^^^ t) (a ^^^ b) g = some (x ^^^ y)) ∧
  ∀ (s g h : Word) (b : QWord), g.toNat + h.toNat < 2 ^ 32 →
    ∃ x y, wordReply .merge s 0#128 g = some x ∧ wordReply .merge x b h = some y ∧
      wordReply .merge s b (g + h) = some y

/-- 40 R106: CLMUL is commutative and bilinear over XOR, a power of two shifts, and a product of factors below 2^p
and 2^q is below 2^(p+q-1). -/
def Obligations.ClmulIsCommutativeBilinearAndBounded : Prop :=
  (∀ a b : DWord, clmul a b = clmul b a) ∧
  (∀ a a' b : DWord, clmul (a ^^^ a') b = clmul a b ^^^ clmul a' b) ∧
  (∀ (a : DWord) (j : Nat), j < 64 → clmul a (BitVec.twoPow 64 j) = a.setWidth 128 <<< j) ∧
  ∀ (a b : DWord) (p q : Nat), 1 ≤ p → 1 ≤ q → a.toNat < 2 ^ p → b.toNat < 2 ^ q →
    (clmul a b).toNat < 2 ^ (p + q - 1)

/-- 40 R107: merge correctness, for every seed and every split whose second part has at most 2^32 - 1 bits. -/
def Obligations.MergeOfPartsIsTheCrcOfTheWhole : Prop :=
  ∀ (s : Word) (xs ys : List Byte), 8 * ys.length < 2 ^ 32 →
    wordReply .merge (crcBytes s xs) ((crcBytes 0#32 ys).setWidth 128) (BitVec.ofNat 32 (8 * ys.length)) =
      some (crcBytes s (xs ++ ys))

/-- 40 R108: CRC64 with seed 0 of a product of two CRC values multiplies by x^33, so MERGE by `g ≥ 33` is that
reduction with the constant XNMODP(g - 33). -/
def Obligations.CrcOfProductReducesWithOffsetThirtyThree : Prop :=
  (∀ a k : Word, (clmul (a.setWidth 64) (k.setWidth 64)).toNat < 2 ^ 63) ∧
  (∀ a k : Word, ∃ r, wordReply .crc64 0#32 (clmul (a.setWidth 64) (k.setWidth 64)) 0#32 = some r ∧
    poly32 r = (Polynomial.X ^ 33 * poly32 a * poly32 k) %ₘ genP) ∧
  ∀ a b g : Word, 33 ≤ g.toNat →
    ∃ k p r, wordReply .xnmodp 0#32 0#128 (g - 33#32) = some k ∧
      reply .clmul 0#32 (a.setWidth 128) (k.setWidth 128) 0#32 = some p ∧
      wordReply .crc64 0#32 ((p.setWidth 64).setWidth 128) 0#32 = some r ∧
      wordReply .merge a (b.setWidth 128) g = some (r ^^^ b)

/-- 41 R125: the table steps equal the serial ones; the word step equals four byte steps in stream order. -/
def Obligations.TableStepsEqualSerialSteps : Prop :=
  (∀ (s : Word) (d : Byte), wordReply .crct8 s (d.setWidth 128) 0#32 = some (crcByte s d) ∧
    wordReply .crcb8 s (d.setWidth 128) 0#32 = some (crcByte s d)) ∧
  ∀ s w : Word, wordReply .crct32 s (w.setWidth 128) 0#32 = some (crcBytes s (leBytes w 4)) ∧
    wordReply .crct32 s (w.setWidth 128) 0#32 =
      (wordReply .crcb8 s ((w.extractLsb' 0 8).setWidth 128) 0#32).bind fun r0 =>
        (wordReply .crcb8 r0 ((w.extractLsb' 8 8).setWidth 128) 0#32).bind fun r1 =>
          (wordReply .crcb8 r1 ((w.extractLsb' 16 8).setWidth 128) 0#32).bind fun r2 =>
            wordReply .crcb8 r2 ((w.extractLsb' 24 8).setWidth 128) 0#32

/-- 42 R144: the native widths compose, and CRC8 and CRC32 equal the other engines' steps. -/
def Obligations.NativeWidthsCompose : Prop :=
  ∀ (s : Word) (a : QWord),
    wordReply .crc8 s a 0#32 = wordReply .crcb8 s a 0#32 ∧ wordReply .crc8 s a 0#32 = wordReply .crct8 s a 0#32 ∧
    wordReply .crc16 s a 0#32 = (wordReply .crc8 s ((a.extractLsb' 0 8).setWidth 128) 0#32).bind (fun r =>
      wordReply .crc8 r ((a.extractLsb' 8 8).setWidth 128) 0#32) ∧
    wordReply .crc32 s a 0#32 = (wordReply .crc16 s ((a.extractLsb' 0 16).setWidth 128) 0#32).bind (fun r =>
      wordReply .crc16 r ((a.extractLsb' 16 16).setWidth 128) 0#32) ∧
    wordReply .crc32 s a 0#32 = wordReply .crct32 s a 0#32 ∧
    wordReply .crc64 s a 0#32 = (wordReply .crc32 s ((a.extractLsb' 0 32).setWidth 128) 0#32).bind (fun r =>
      wordReply .crc32 r ((a.extractLsb' 32 32).setWidth 128) 0#32)

/-- 42 R145: what each native step means as polynomials. -/
def Obligations.NativeStepsAreRemaindersOfTheirMessage : Prop :=
  ∀ (s : Word) (a : QWord), ∀ p ∈ [(Instr.crc8, 8), (Instr.crc16, 16), (Instr.crc32, 32), (Instr.crc64, 64)],
    ∃ r, wordReply p.1 s a 0#32 = some r ∧
      poly32 r = (poly32 s * Polynomial.X ^ p.2 + msgBits (a.extractLsb' 0 p.2) * Polynomial.X ^ 32) %ₘ genP

/-- 42 R146, 43 R163: a seed is an XOR into the first four bytes of the data, so the running CRC enters the fold
accumulator by an XOR into the first block. -/
def Obligations.SeedIsAnXorIntoTheFirstBytes : Prop :=
  (∀ (s : Word) (a : QWord),
    wordReply .crc32 s a 0#32 = wordReply .crc32 0#32 (a ^^^ s.setWidth 128) 0#32 ∧
    wordReply .crc64 s a 0#32 = wordReply .crc64 0#32 (a ^^^ s.setWidth 128) 0#32) ∧
  (∀ (s : Word) (ds : List Byte), 4 ≤ ds.length → crcBytes s ds = crcBytes 0#32 (xorInto (leBytes s 4) ds)) ∧
  ∀ (s : Word) (ds : List Byte), 16 ≤ ds.length →
    crcBytes s ds = crcBytes 0#32 (leBytes (fromLe 128 (ds.take 16) ^^^ s.setWidth 128) 16 ++ ds.drop 16)

/-- 43 R162, R164: a 128-bit message is its halves with the low one first, and one lane product's message is exactly
x^33 times the messages of its factors. -/
def Obligations.LaneProductMessageIsExact : Prop :=
  (∀ v : QWord, msgBits v = msgBits (v.extractLsb' 0 64) * Polynomial.X ^ 64 + msgBits (v.extractLsb' 64 64)) ∧
  (∀ v : QWord, poly32 (crcBytes 0#32 (leBytes v 16)) = (msgBits v * Polynomial.X ^ 32) %ₘ genP) ∧
  ∀ (h : DWord) (k : Word), msgBits (clmul h (k.setWidth 64)) = Polynomial.X ^ 33 * msgBits h * poly32 k

/-- 43 R165: the fold invariant, as CRCs before any data that follows, and as messages modulo P. -/
def Obligations.FoldKeepsTheMessageModuloP : Prop :=
  ∀ acc blk : QWord, ∃ f, reply .fold 0#32 acc blk 0#32 = some f ∧
    (∀ ds, crcBytes 0#32 (leBytes f 16 ++ ds) = crcBytes 0#32 (leBytes acc 16 ++ leBytes blk 16 ++ ds)) ∧
    msgBits f %ₘ genP = (msgBits acc * Polynomial.X ^ 128 + msgBits blk) %ₘ genP

/-- 43 R166: fold correctness, for a first block, any number of further 16-byte blocks, and a residue. -/
def Obligations.FoldChainGivesTheCrc : Prop :=
  ∀ (s : Word) (d0 : List Byte) (blocks : List (List Byte)) (tail : List Byte),
    d0.length = 16 → (∀ b ∈ blocks, b.length = 16) → tail.length < 16 →
    ∃ acc r,
      blocks.foldlM (fun acc b => reply .fold 0#32 acc (fromLe 128 b) 0#32) (fromLe 128 d0 ^^^ s.setWidth 128) =
        some acc ∧
      wordReply .foldred 0#32 acc 0#32 = some r ∧
      crcBytes s (d0 ++ blocks.flatten ++ tail) = crcBytes r tail

end CommandLaws

section HostContract

/-- 44 R182: the concatenation law, public and raw. -/
def Obligations.ComputeOverAConcatenation : Prop :=
  (∀ (s : Word) (xs ys : List Byte), compute (compute s xs) ys = compute s (xs ++ ys)) ∧
  (∀ (r : Word) (xs ys : List Byte), crcBytes (crcBytes r xs) ys = crcBytes r (xs ++ ys)) ∧
  ∀ s : Word, compute s [] = s

/-- 44 R183, R194: every host procedure, run through the machine's answers, returns the raw CRC, for every seed, data
of every length (none of them too short for a block path, 44 R189), address and parameter choice. The table procedure
may take its byte-wise path alone (44 R185), and the fold procedure's commands are right from one block on. -/
def Obligations.EveryEngineReturnsTheSerialCrc : Prop :=
  ∀ (addr : Nat) (r : Word) (data : List Byte),
    naiveProcedure Rom.content r data = .ok (crcBytes r data) ∧
    tableProcedure Rom.content addr r data = .ok (crcBytes r data) ∧
    bytewise Rom.content .crct8 r data = .ok (crcBytes r data) ∧
    scalarProcedure Rom.content addr r data = .ok (crcBytes r data) ∧
    (∀ m : MergeShape, 1 ≤ m.words → mergeProcedure Rom.content m addr r data = .ok (crcBytes r data)) ∧
    (∀ minBlocks, 2 ≤ minBlocks → foldProcedure Rom.content minBlocks addr r data = .ok (crcBytes r data)) ∧
    (16 ≤ data.length → foldPath Rom.content addr r data = .ok (crcBytes r data))

/-- 44 R187: one block of the interleaved procedure by CLMUL with exact constants, and by MERGE, is the raw CRC of the
block, for every shape. A gap that does not fit the 32-bit N is composed, log 21. -/
def Obligations.MergeBlockBothWaysIsTheCrcOfTheBlock : Prop :=
  ∀ (m : MergeShape) (c : Word) (block : List Byte), 1 ≤ m.words → block.length = m.bytes →
    mergeBlock Rom.content m c block = .ok (crcBytes c block) ∧
    mergeBlockByMerge Rom.content m c block = .ok (crcBytes c block)

/-- 44 R189, R180, 20 R55: the dispatcher's choice never changes the result, over a buffer the host can read; a
buffer with an unreadable byte is a host fault. The thresholds are the host's, log 15. -/
def Obligations.DispatchedComputeOverAReadableBuffer : Prop :=
  ∀ (p : HostParams) (mem : List Host.Cell) (seed : Word) (addr len : Nat),
    2 ≤ p.foldMinBlocks → 1 ≤ p.merge.words →
    (∀ data, readBuffer mem addr len = .ok data →
      data.length = len ∧ computeBuffer Rom.content p mem seed addr len = .ok (compute seed data)) ∧
    ((∃ j < len, ∀ cell ∈ mem, cell.1 ≠ addr + j) ↔
      ∃ a, computeBuffer Rom.content p mem seed addr len = .error (.unreadable a))

/-- 44 R190: two shards' public CRCs combine to the public CRC of the whole, by one MERGE where the second shard's bits
fit N. For a longer one the host composes the shift, which is the model's choice, log 21 (92 D33), no rule's words. -/
def Obligations.ShardsCombineToTheWhole : Prop :=
  (∀ (s : Word) (xs ys : List Byte), 8 * ys.length < 2 ^ 32 →
    wordReply .merge (~~~compute s xs) ((~~~compute 0xFFFFFFFF#32 ys).setWidth 128)
      (BitVec.ofNat 32 (8 * ys.length)) = some (~~~compute s (xs ++ ys))) ∧
  (∀ (s : Word) (xs ys : List Byte),
    combineShards Rom.content (compute s xs) (compute 0xFFFFFFFF#32 ys) ys.length = .ok (compute s (xs ++ ys))) ∧
  compute 0#32 [0x31#8, 0x32#8, 0x33#8, 0x34#8] = 0xF63AF4EE#32 ∧
  compute 0xFFFFFFFF#32 [0x35#8, 0x36#8, 0x37#8, 0x38#8, 0x39#8] = 0x3938EC12#32 ∧
  combineShards Rom.content 0xF63AF4EE#32 0x3938EC12#32 5 = .ok 0xE3069283#32

/-- 44 R191: the known vectors hold for every engine, at every buffer address and for every parameter choice. -/
def Obligations.KnownVectorsHoldForEveryEngine : Prop :=
  let digits : List Byte := [0x31#8, 0x32#8, 0x33#8, 0x34#8, 0x35#8, 0x36#8, 0x37#8, 0x38#8, 0x39#8]
  compute 0#32 [] = 0#32 ∧ compute 0#32 digits = 0xE3069283#32 ∧
  ∀ (addr : Nat) (p : HostParams), 2 ≤ p.foldMinBlocks → 1 ≤ p.merge.words →
    ∀ engine ∈ [naiveProcedure Rom.content, tableProcedure Rom.content addr, scalarProcedure Rom.content addr,
        mergeProcedure Rom.content p.merge addr, foldProcedure Rom.content p.foldMinBlocks addr,
        dispatch Rom.content p addr],
      computeBy engine 0#32 [] = .ok 0#32 ∧ computeBy engine 0#32 digits = .ok 0xE3069283#32

end HostContract
end

