-- ==== Sys2Proof/Laws/Assembler.lean ====
section
/-! SUPPORT. What the assembler's two tables give: a mnemonic's instruction is well-formed, and the values of a line
name the instruction's fields in order; and what digits, values, lines and items read as. -/

namespace Sys2Proof.Machine

/-- Every mnemonic stands for a well-formed instruction. -/
theorem mnemonicInstr_wellFormed {m : List Char} {i : Instr} (h : mnemonicInstr m = some i) :
    i.wellFormed = true := by
  simp only [mnemonicInstr, ite_eq_iff] at h
  repeat' rcases h with ⟨-, h⟩ | ⟨-, h⟩
  all_goals rfl

/-- A line that parses gives one value to each field, in order. -/
theorem fieldValues_names {fs : List (Char × Nat)} {items : List (List Char)} {vs : List (Char × Nat)}
    (h : fieldValues fs items = some vs) : vs.map Prod.fst = fs.map Prod.fst := by
  induction fs generalizing items vs with
  | nil => cases items <;> simp [fieldValues] at h; subst h; rfl
  | cons p fs ih =>
    obtain ⟨f, width⟩ := p
    have keep : ∀ {x : Nat} {rest : List (List Char)},
        (fieldValues fs rest).map ((f, x) :: ·) = some vs → vs.map Prod.fst = f :: fs.map Prod.fst := by
      intro x rest hm
      obtain ⟨a, ha, rfl⟩ := Option.map_eq_some_iff.mp hm
      simp [ih ha]
    cases items with
    | nil => exact keep (by simpa only [fieldValues] using h)
    | cons item items =>
      simp only [fieldValues] at h
      split at h
      · split at h
        · obtain ⟨x, -, h⟩ := Option.bind_eq_some_iff.mp h
          split at h
          · exact keep h
          · cases h
        · exact keep h
      · cases h

/-! ### Digits and values -/

/-- A hexadecimal digit below a smaller base is that base's digit. -/
theorem digitValue_lt {base : Nat} (ch : Char) {d : Nat} (h : digitValue 16 ch = some d) (hd : d < base) :
    digitValue base ch = some d := by
  simp only [digitValue, Option.ite_none_right_eq_some, Option.some.injEq] at h ⊢
  obtain ⟨_, rfl⟩ := h
  exact ⟨hd, rfl⟩

/-- Lean's digit characters have their values. -/
theorem digitValue_digitChar (base n : Nat) (hb : base ≤ 16) (h : n < base) : digitValue base (Nat.digitChar n) =
    some n := by
  have : ∀ n : Fin 16, digitValue 16 (Nat.digitChar n) = some n.val := by decide
  exact digitValue_lt _ (this ⟨n, by omega⟩) h

/-- A last digit. -/
theorem parseDigits_append_one (base : Nat) (ds : List Char) (hds : ds ≠ []) (ch : Char) : ∀ acc,
    parseDigits base acc (ds ++ [ch]) = (parseDigits base acc ds).bind fun y => (digitValue base ch).map (y * base
        + ·) := by
  induction ds with
  | nil => contradiction
  | cons c ds ih =>
    intro acc
    cases ds with
    | nil => simp [parseDigits]; cases digitValue base c <;> rfl
    | cons c2 ds =>
      have := ih (by simp)
      simp only [List.cons_append, parseDigits] at this ⊢
      cases h : digitValue base c <;> simp [this]

/-- Parsing undoes writing in a base. -/
theorem parseDigits_toDigits (base : Nat) (h1 : 1 < base) (hb : base ≤ 16) (x : Nat) :
    parseDigits base 0 (Nat.toDigits base x) = some x := by
  induction x using Nat.strongRecOn with
  | _ x ih =>
    rw [Nat.toDigits_eq_if h1]
    split
    · next h => simp [parseDigits, digitValue_digitChar _ _ hb h]
    · next h =>
      rw [parseDigits_append_one _ _ Nat.toDigits_ne_nil, ih _ (Nat.div_lt_self (by omega) h1)]
      simp [digitValue_digitChar _ _ hb (Nat.mod_lt x (by omega : base > 0)), Nat.div_add_mod']

/-- A digit is neither blank nor comma. -/
theorem digitValue_char {base : Nat} {ch : Char} {d : Nat} (hb : base ≤ 16) (h : digitValue base ch = some d) :
    ch ≠ ' ' ∧ ch ≠ ',' := by
  constructor <;> rintro rfl <;> simp [digitValue] at h <;> omega

/-- A run of digits has neither blank nor comma. -/
theorem parseDigits_chars {base} (hb : base ≤ 16) : ∀ ds acc x, parseDigits base acc ds = some x → ∀ ch ∈ ds,
    ch ≠ ' ' ∧ ch ≠ ',' := by
  intro ds
  induction ds with
  | nil => simp
  | cons c ds ih =>
    intro acc x h
    cases ds with
    | nil =>
      simp only [parseDigits, Option.map_eq_some_iff] at h
      obtain ⟨d, hd, _⟩ := h
      simpa using digitValue_char hb hd
    | cons c2 ds =>
      simp only [parseDigits, Option.bind_eq_some_iff] at h
      obtain ⟨d, hd, h⟩ := h
      intro ch hch
      cases hch with
      | head => exact digitValue_char hb hd
      | tail _ hm => exact ih _ _ h _ hm

/-- A value has neither blank nor comma. -/
theorem parseValue_chars {v x} (h : parseValue v = some x) : ∀ ch ∈ v, ch ≠ ' ' ∧ ch ≠ ',' := by
  unfold parseValue at h
  split at h
  · intro ch hch
    simp only [List.mem_cons] at hch
    obtain rfl | rfl | hch := hch
    · decide
    · decide
    · exact parseDigits_chars (by omega) _ _ _ h _ hch
  · exact parseDigits_chars (by omega) _ _ _ h

/-- A value is not empty. -/
theorem parseValue_ne_nil {v x} (h : parseValue v = some x) : v ≠ [] := by
  rintro rfl; simp [parseValue, parseDigits] at h

/-! ### Lines and items -/

/-- A text with neither blank nor comma. -/
def Plain (v : List Char) : Prop := ∀ ch ∈ v, ch ≠ ' ' ∧ ch ≠ ','

/-- Items separated by commas alone: a joined line without its blanks. -/
def joinCommas : List (List Char) → List Char
  | [] => []
  | [x] => x
  | x :: y :: rest => x ++ (',' :: joinCommas (y :: rest))

/-- Dropping the blanks of a joined line. -/
theorem filter_joinItems : ∀ items : List (List Char), (∀ v ∈ items, Plain v) →
    (joinItems items).filter (fun c => decide (c ≠ ' ')) = joinCommas items := by
  have hp : ∀ x, Plain x → x.filter (fun c => decide (c ≠ ' ')) = x :=
      fun x hx => List.filter_eq_self.mpr fun c hc => by simpa using (hx c hc).1
  intro items
  induction items with
  | nil => simp [joinItems, joinCommas]
  | cons x rest ih =>
    intro h
    cases rest with
    | nil => simpa [joinItems, joinCommas] using hp x (h x (by simp))
    | cons y r =>
      have := ih fun v hv => h v (by simp [hv])
      simp only [joinItems, joinCommas, List.filter_append, hp x (h x (by simp))]
      rw [List.filter_cons_of_pos (by decide), List.filter_cons_of_neg (by decide), this]

/-- One item. -/
theorem splitChars_plain : ∀ x : List Char, Plain x → splitChars ',' x = [x] := by
  intro x
  induction x with
  | nil => intro _; rfl
  | cons c x ih =>
    intro h
    have hc : c ≠ ',' := (h c (by simp)).2
    simp [splitChars, hc, ih fun ch hch => h ch (by simp [hch])]

/-- An item before a comma. -/
theorem splitChars_append : ∀ (x y : List Char), Plain x → splitChars ',' (x ++ ',' :: y) =
    x :: splitChars ',' y := by
  intro x
  induction x with
  | nil => intro y _; simp [splitChars]
  | cons c x ih =>
    intro y h
    have hc : c ≠ ',' := (h c (by simp)).2
    simp [splitChars, hc, ih y fun ch hch => h ch (by simp [hch])]

/-- Splitting undoes joining. -/
theorem splitChars_joinCommas : ∀ items : List (List Char), items ≠ [] → (∀ v ∈ items, Plain v) →
    splitChars ',' (joinCommas items) = items := by
  intro items
  induction items with
  | nil => simp
  | cons x rest ih =>
    intro _ h
    cases rest with
    | nil => exact splitChars_plain x (h x (by simp))
    | cons y r =>
      rw [joinCommas, splitChars_append _ _ (h x (by simp)), ih (by simp) fun v hv => h v (by simp [hv])]

/-- Only no items join to nothing. -/
theorem joinCommas_isEmpty {items : List (List Char)} (h : ∀ v ∈ items, v ≠ []) : (joinCommas items).isEmpty =
    items.isEmpty := by
  cases items with
  | nil => rfl
  | cons x rest =>
    have := h x (by simp)
    cases rest <;> cases x <;> simp_all [joinCommas]

/-- The text before the first blank, and what is left. -/
theorem takeWhile_dropWhile_blank (m r : List Char) (hm : ∀ c ∈ m, c ≠ ' ') :
    (m ++ ' ' :: r).takeWhile (fun c => decide (c ≠ ' ')) = m ∧
        (m ++ ' ' :: r).dropWhile (fun c => decide (c ≠ ' ')) = ' ' :: r := by
  induction m with
  | nil => simp
  | cons c m ih =>
    have hc := hm c (by simp)
    have := ih fun d hd => hm d (by simp [hd])
    simp_all

/-- All that `splitLine` does to a line of a mnemonic and items: it gives them back. -/
theorem splitLine_joinItems (m : List Char) (hm0 : m ≠ []) (hm : ∀ c ∈ m, c ≠ ' ') (items : List (List Char))
    (h : ∀ v ∈ items, Plain v ∧ v ≠ []) :
    splitLine (m ++ (' ' :: joinItems items)) = (m, items) := by
  have hb : (m ++ (' ' :: joinItems items)).dropWhile (fun c => decide (c = ' ')) =
      m ++ (' ' :: joinItems items) := by
    cases m with
    | nil => contradiction
    | cons c m => have := hm c (by simp); simp [this]
  obtain ⟨h1, h2⟩ := takeWhile_dropWhile_blank m (joinItems items) hm
  have hf := filter_joinItems items fun v hv => (h v hv).1
  simp only [splitLine, hb, h1, h2]
  rw [List.filter_cons_of_neg (by decide), hf, joinCommas_isEmpty fun v hv => (h v hv).2]
  cases items with
  | nil => rfl
  | cons x r => simp [splitChars_joinCommas (x :: r) (by simp) fun v hv => (h v hv).1]

/-- A field whose text fits it takes that text's value, omitted ones 0, and leaves the other items. -/
theorem fieldValues_fieldItem {f : Char} {w : Nat} {fs : List (Char × Nat)} {t : Option (List Char)} {rest : List
    (List Char)} {vs} {r : Nat}
    (ht : textFits r w t) (hrest : ∀ v, (f :: '=' :: v) ∉ rest) (hform : ∀ it ∈ rest, ∃ g v, it = g :: '=' :: v)
    (h : fieldValues fs rest = some vs) :
    fieldValues ((f, w) :: fs) (fieldItem f t ++ rest) = some ((f, textValue t) :: vs) := by
  cases t with
  | some v =>
    obtain ⟨_, x, hx, hv⟩ := ht
    simp [fieldItem, fieldValues, hv, hx, h, textValue]
  | none =>
    cases rest with
    | nil => simp [fieldItem, fieldValues, h, textValue]
    | cons it rest =>
      obtain ⟨g, v, rfl⟩ := hform it (by simp)
      have : g ≠ f := fun e => hrest v (by simp [e])
      simp [fieldItem, fieldValues, h, textValue, this]

end Sys2Proof.Machine
end

