-- ==== Sys2Proof/Laws/Exec.lean ====
section
/-! SUPPORT. Each meaning as the shared operation `complete` with its own rule: one lemma per command, which later
proofs cite instead of unfolding the meaning. -/

namespace Sys2Proof.Machine

variable (s : State)

theorem exec_crcb8_eq : exec .crcb8 s = s.complete (fun _ c => zext128 (crcByte c.s c.byteA)) := rfl

theorem exec_crct8_eq : exec .crct8 s = s.complete (fun rom c => zext128 (tableStep8 rom c.s c.byteA)) := rfl

theorem exec_crct32_eq : exec .crct32 s = s.complete (fun rom c => zext128 (tableStep32 rom c.s c.wordA)) := rfl

theorem exec_crc8_eq : exec .crc8 s = s.complete (fun _ c => zext128 (crcBytes c.s [c.byteA])) := rfl

theorem exec_crc16_eq : exec .crc16 s = s.complete (fun _ c => zext128 (crcBytes c.s (leBytes c.halfA 2))) := rfl

theorem exec_crc32_eq : exec .crc32 s = s.complete (fun _ c => zext128 (crcBytes c.s (leBytes c.wordA 4))) := rfl

theorem exec_crc64_eq : exec .crc64 s = s.complete (fun _ c => zext128 (crcBytes c.s (leBytes c.loA 8))) := rfl

theorem exec_xnmodp_eq : exec .xnmodp s = s.complete (fun _ c => zext128 (xpow c.n)) := rfl

theorem exec_clmul_eq : exec .clmul s = s.complete (fun _ c => clmul c.loA c.loB) := rfl

theorem exec_merge_eq : exec .merge s = s.complete (fun _ c => zext128 (mulMod (xpow c.n) c.s ^^^ c.wordA)) := rfl

theorem exec_fold_eq : exec .fold s = s.complete (fun rom c => foldStep rom c.loA c.hiA c.b) := rfl

theorem exec_foldred_eq : exec .foldred s = s.complete (fun _ c => zext128 (crcBytes (crcBytes 0#32 (leBytes c.loA 8)) (leBytes c.hiA 8))) := rfl

theorem exec_tblrd_eq (row : Nat) (h : row < 4) :
    exec (.tblrd row) s = s.complete (fun rom c => zext128 (rom.entry ⟨row, h⟩ c.byteA)) := by
  simp only [exec, execTblrd, dif_pos h]

theorem exec_tblrd_refused (row : Nat) (h : ¬ row < 4) : exec (.tblrd row) s = .refused (.noSuchTableRow row) := by
  simp only [exec, execTblrd, dif_neg h]

end Sys2Proof.Machine
end

