-- ==== Sys2Proof/Laws/Gf2.lean ====
section
/-! SUPPORT. The primitives over GF(2) are linear, steps add up, and square-and-multiply gives the serial result. -/

namespace Sys2Proof.Machine

@[simp] theorem withValue_eq {α : Type} (r : Word) (f : Word → α) : withValue r f = f r := by
  unfold withValue
  split
  · next h => exact congrArg f (BitVec.eq_of_toNat_eq (by simp [h]))
  · next k h =>
    refine congrArg f (BitVec.eq_of_toNat_eq ?_)
    have := r.isLt
    rw [BitVec.toNat_ofNat, h]
    exact Nat.mod_eq_of_lt (by omega)

/-! ### Linearity -/

@[simp] theorem mulx_zero : mulx 0#32 = 0#32 := by decide

theorem mulx_eq (r : Word) : mulx r = (r >>> 1) ^^^ bif r.getLsbD 0 then castagnoli else 0#32 := by
  unfold mulx; cases r.getLsbD 0 <;> simp

theorem mulx_xor (a b : Word) : mulx (a ^^^ b) = mulx a ^^^ mulx b := by
  have h : (bif (a ^^^ b).getLsbD 0 then castagnoli else 0#32) =
      (bif a.getLsbD 0 then castagnoli else 0#32) ^^^ bif b.getLsbD 0 then castagnoli else 0#32 := by
    rw [BitVec.getLsbD_xor]
    cases a.getLsbD 0 <;> cases b.getLsbD 0 <;> simp
  rw [mulx_eq, mulx_eq a, mulx_eq b, h, BitVec.ushiftRight_xor_distrib]
  ac_rfl

@[simp] theorem mulxn_zero (r : Word) : mulxn r 0 = r := rfl

theorem mulxn_succ (r : Word) (n : Nat) : mulxn r (n + 1) = mulx (mulxn r n) := rfl

@[simp] theorem zero_mulxn (n : Nat) : mulxn 0#32 n = 0#32 := by
  induction n with
  | zero => rfl
  | succ n ih => rw [mulxn_succ, ih, mulx_zero]

theorem mulxn_xor (a b : Word) (n : Nat) : mulxn (a ^^^ b) n = mulxn a n ^^^ mulxn b n := by
  induction n with
  | zero => rfl
  | succ n ih => rw [mulxn_succ, ih, mulx_xor]; rfl

theorem mulxn_add (r : Word) (m n : Nat) : mulxn r (m + n) = mulxn (mulxn r m) n := by
  induction n with
  | zero => rfl
  | succ n ih => rw [Nat.add_succ, mulxn_succ, ih]; rfl

/-- The low `k + 1` bits of a word are its low `k` bits and bit `k`. -/
theorem low_succ (r : Word) (k : Nat) (hk : k < 32) :
    (r.setWidth (k + 1)).setWidth 32 =
      (r.setWidth k).setWidth 32 ^^^ bif r.getLsbD k then BitVec.twoPow 32 k else 0#32 := by
  apply BitVec.eq_of_getLsbD_eq
  intro j hj
  rw [BitVec.getLsbD_xor]
  simp only [BitVec.getLsbD_setWidth]
  have ht : (bif r.getLsbD k then BitVec.twoPow 32 k else 0#32).getLsbD j = (r.getLsbD j && decide (j = k)) := by
    by_cases h : j = k
    · subst h; cases r.getLsbD j <;> simp [hj]
    · cases r.getLsbD k <;> simp [BitVec.getLsbD_twoPow, h, Ne.symm h]
  rw [ht]
  rcases Nat.lt_trichotomy j k with h | h | h
  · simp [hj, h, Nat.lt_succ_of_lt h, Nat.ne_of_lt h]
  · simp [h, hk]
  · simp [show ¬ j < k by omega, show ¬ j < k + 1 by omega, show ¬ j = k by omega]

/-- A map that respects XOR. -/
def RespectsXor (f : Word → Word) : Prop := ∀ a b, f (a ^^^ b) = f a ^^^ f b

theorem RespectsXor.map_zero {f : Word → Word} (hf : RespectsXor f) : f 0#32 = 0#32 := by
  have := hf 0#32 0#32
  simpa using this

theorem RespectsXor.ext {f g : Word → Word} (hf : RespectsXor f) (hg : RespectsXor g)
    (h : ∀ k : Fin 32, f (BitVec.twoPow 32 k) = g (BitVec.twoPow 32 k)) (r : Word) : f r = g r := by
  have key : ∀ k ≤ 32, f ((r.setWidth k).setWidth 32) = g ((r.setWidth k).setWidth 32) := by
    intro k
    induction k with
    | zero =>
      intro _
      have : (r.setWidth 0).setWidth 32 = 0#32 := by
        apply BitVec.eq_of_getLsbD_eq; simp
      rw [this, hf.map_zero, hg.map_zero]
    | succ k ih =>
      intro hk
      rw [low_succ r k (by omega), hf, hg, ih (by omega)]
      cases r.getLsbD k
      · simp [hf.map_zero, hg.map_zero]
      · simpa using h ⟨k, by omega⟩
  simpa using key 32 (Nat.le_refl 32)

theorem mulModFrom_succ (a b : Word) (k : Nat) (acc : Word) :
    mulModFrom a b (k + 1) acc = mulModFrom a b k (mulx acc ^^^ (if a.getLsbD (31 - k) then b else 0#32)) := by
  simp [mulModFrom]

theorem mulModFrom_xor (a b : Word) (k : Nat) (x y : Word) :
    mulModFrom a b k (x ^^^ y) = mulxn x k ^^^ mulModFrom a b k y := by
  induction k generalizing x y with
  | zero => rfl
  | succ k ih =>
    rw [mulModFrom_succ, mulx_xor, BitVec.xor_assoc, ih, mulModFrom_succ, show mulxn (mulx x) k = mulxn x (k + 1) by
      rw [Nat.add_comm, mulxn_add]; rfl]

theorem mulModFrom_eq (a b : Word) (k : Nat) (x : Word) :
    mulModFrom a b k x = mulxn x k ^^^ mulModFrom a b k 0#32 := by
  simpa using mulModFrom_xor a b k x 0#32

theorem mulModFrom_left (a a' b : Word) (k : Nat) (x y : Word) :
    mulModFrom (a ^^^ a') b k (x ^^^ y) = mulModFrom a b k x ^^^ mulModFrom a' b k y := by
  induction k generalizing x y with
  | zero => rfl
  | succ k ih =>
    rw [mulModFrom_succ, mulModFrom_succ, mulModFrom_succ, ← ih, mulx_xor, BitVec.getLsbD_xor]
    have h : (if (a.getLsbD (31 - k) ^^ a'.getLsbD (31 - k)) = true then b else 0#32) =
        (if a.getLsbD (31 - k) = true then b else 0#32) ^^^ (if a'.getLsbD (31 - k) = true then b else 0#32) := by
      cases a.getLsbD (31 - k) <;> cases a'.getLsbD (31 - k) <;> simp
    rw [h]; congr 1; ac_rfl

theorem mulModFrom_right (a b b' : Word) (k : Nat) (x y : Word) :
    mulModFrom a (b ^^^ b') k (x ^^^ y) = mulModFrom a b k x ^^^ mulModFrom a b' k y := by
  induction k generalizing x y with
  | zero => rfl
  | succ k ih =>
    rw [mulModFrom_succ, mulModFrom_succ, mulModFrom_succ, ← ih, mulx_xor]
    congr 1
    cases a.getLsbD (31 - k)
    · simp
    · simp only [if_true]; ac_rfl

theorem mulMod_xor_left (a a' b : Word) : mulMod (a ^^^ a') b = mulMod a b ^^^ mulMod a' b := by
  simpa [mulMod] using mulModFrom_left a a' b 32 0#32 0#32

theorem mulMod_xor_right (a b b' : Word) : mulMod a (b ^^^ b') = mulMod a b ^^^ mulMod a b' := by
  simpa [mulMod] using mulModFrom_right a b b' 32 0#32 0#32

theorem mulModFrom_ushiftRight (a b : Word) (k : Nat) (hk : k ≤ 31) (x : Word) :
    mulModFrom (a >>> 1) b (k + 1) x = mulx (mulModFrom a b k x) := by
  induction k generalizing x with
  | zero => simp [mulModFrom]
  | succ k ih =>
    rw [mulModFrom_succ, ih (by omega), mulModFrom_succ]
    rw [BitVec.getLsbD_ushiftRight, show 1 + (31 - (k + 1)) = 31 - k by omega]

theorem mulMod_castagnoli (b : Word) : mulMod castagnoli b = mulxn b 32 :=
  RespectsXor.ext (f := mulMod castagnoli) (g := fun b => mulxn b 32) (mulMod_xor_right castagnoli)
    (fun x y => mulxn_xor x y 32) (by decide +kernel) b

theorem mulMod_mulx (a b : Word) : mulMod (mulx a) b = mulx (mulMod a b) := by
  have h1 : mulMod (a >>> 1) b = mulx (mulModFrom a b 31 0#32) := mulModFrom_ushiftRight a b 31 (by omega) 0#32
  have h2 : mulMod a b = mulxn (if a.getLsbD 0 then b else 0#32) 31 ^^^ mulModFrom a b 31 0#32 := by
    unfold mulMod; rw [mulModFrom_succ, mulModFrom_eq]; simp
  rw [mulx_eq, mulMod_xor_left, h1, h2, mulx_xor]
  cases a.getLsbD 0
  · have h3 : mulMod 0#32 b = 0#32 := by simpa using mulMod_xor_left 0#32 0#32 b
    simp [h3]
  · simp only [cond_true, if_true, mulMod_castagnoli, mulxn_succ b 31]
    exact BitVec.xor_comm _ _


theorem mulMod_onePoly (b : Word) : mulMod onePoly b = b := by
  refine RespectsXor.ext (f := mulMod onePoly) (g := id) (mulMod_xor_right onePoly) (fun _ _ => rfl) ?_ b
  decide +kernel

/-- A product with `x^n` is `n` steps. -/
theorem mulMod_mulxn (n : Nat) (b : Word) : mulMod (mulxn onePoly n) b = mulxn b n := by
  induction n with
  | zero => exact mulMod_onePoly b
  | succ n ih => rw [mulxn_succ, mulMod_mulx, ih]; rfl

theorem xpowFrom_succ (n : Word) (k : Nat) (r : Word) :
    xpowFrom n (k + 1) r = xpowFrom n k (if n.getLsbD k then mulx (mulMod r r) else mulMod r r) := by
  simp [xpowFrom]

theorem xpowFrom_mulxn (n : Word) (k m : Nat) :
    xpowFrom n k (mulxn onePoly m) = mulxn onePoly (m * 2 ^ k + n.toNat % 2 ^ k) := by
  induction k generalizing m with
  | zero => simp [xpowFrom, Nat.mod_one]
  | succ k ih =>
    rw [xpowFrom_succ, mulMod_mulxn, ← mulxn_add, ← mulxn_succ, Nat.mod_pow_succ]
    have hb : n.getLsbD k = decide (n.toNat / 2 ^ k % 2 = 1) := by
      rw [BitVec.getLsbD, Nat.testBit_eq_decide_div_mod_eq]
    rw [hb]
    rcases Nat.mod_two_eq_zero_or_one (n.toNat / 2 ^ k) with h | h
    · simp only [h]
      rw [if_neg (by decide), ih]
      congr 1; ring
    · simp only [h]
      rw [if_pos (by decide), ih]
      congr 1; ring

/-- Square and multiply gives the serial result of 40 R100, for every exponent. -/
theorem xpow_eq_mulxn (n : Word) : xpow n = mulxn onePoly n.toNat := by
  have := xpowFrom_mulxn n 32 0
  rw [mulxn_zero, Nat.zero_mul, Nat.zero_add, Nat.mod_eq_of_lt n.isLt] at this
  exact this

/-- Where no reduction happens, `n` steps are a shift. -/
theorem mulxn_ushiftRight (t : Word) (n : Nat) (h : ∀ j < n, t.getLsbD j = false) : mulxn t n = t >>> n := by
  induction n with
  | zero => simp
  | succ n ih =>
    rw [mulxn_succ, ih fun j hj => h j (by omega), mulx_eq, BitVec.getLsbD_ushiftRight, h (n + 0) (by omega)]
    simp [BitVec.shiftRight_add]

/-- The table law at one byte: the bits above the low eight only shift down (41 R124). -/
theorem crcByte_split (r : Word) (d : Byte) :
    crcByte r d = (r >>> 8) ^^^ crcByte 0#32 ((r ^^^ d.setWidth 32).setWidth 8) := by
  have hz : (d.setWidth 32 : Word) >>> 8 = 0#32 := by
    apply BitVec.eq_of_getLsbD_eq; intro j hj; simp [BitVec.getLsbD_ushiftRight]
  have hlow : ∀ t : Word, t = ((t >>> 8) <<< 8) ^^^ (t.setWidth 8).setWidth 32 := by
    intro t
    apply BitVec.eq_of_getLsbD_eq; intro j hj
    rw [BitVec.getLsbD_xor, BitVec.getLsbD_shiftLeft, BitVec.getLsbD_ushiftRight, BitVec.getLsbD_setWidth,
      BitVec.getLsbD_setWidth]
    by_cases h8 : j < 8
    · simp [hj, h8]
    · simp [hj, h8, show 8 + (j - 8) = j by omega]
  have hhi : ∀ t : Word, (t >>> 8) <<< 8 >>> 8 = t >>> 8 := by
    intro t
    apply BitVec.eq_of_getLsbD_eq; intro j hj
    simp only [BitVec.getLsbD_shiftLeft, BitVec.getLsbD_ushiftRight]
    by_cases h8 : 8 + j < 32
    · simp [h8]
    · simp [h8, BitVec.getLsbD_of_ge t (8 + j) (by omega)]
  unfold crcByte
  conv_lhs => rw [hlow (r ^^^ d.setWidth 32)]
  rw [mulxn_xor, mulxn_ushiftRight _ 8 (by
    intro j hj; rw [BitVec.getLsbD_shiftLeft]; simp [hj]), hhi, BitVec.ushiftRight_xor_distrib, hz]
  simp

theorem crcBytes_cons (r : Word) (d : Byte) (ds : List Byte) :
    crcBytes r (d :: ds) = crcBytes (crcByte r d) ds := by simp [crcBytes]

theorem crcBytes_append (r : Word) (xs ys : List Byte) : crcBytes r (xs ++ ys) = crcBytes (crcBytes r xs) ys := by
  induction xs generalizing r with
  | nil => rfl
  | cons d ds ih => rw [List.cons_append, crcBytes_cons, crcBytes_cons, ih]

theorem tableEntry_succ (k : Nat) (i : Byte) :
    tableEntry (k + 1) i = (tableEntry k i >>> 8) ^^^ crcByte 0#32 ((tableEntry k i).setWidth 8) := by
  simp [tableEntry]

@[simp] theorem tabulate_getElem {α : Type} (n : Nat) (f : Nat → α) (i : Nat) (h : i < n) :
    (tabulate n f)[i] = f i := by
  simp [tabulate]

/-- Every entry of the content is its defining formula (10 R24). -/
theorem entry_content (k : Fin 4) (i : Byte) : Rom.content.entry k i = tableEntry k i := by
  simp [Rom.entry, Rom.content]

theorem clmulUpTo_succ (a b : DWord) (i : Nat) :
    clmulUpTo a b (i + 1) = clmulUpTo a b i ^^^ bif b.getLsbD i then a.setWidth 128 <<< i else 0#128 := by
  rw [clmulUpTo]; cases b.getLsbD i <;> simp

end Sys2Proof.Machine
end

