-- ==== Sys2Proof/Laws/State.lean ====
section
/-! SUPPORT. One lemma per field per update of the state, so that no later proof unfolds a record update. -/

namespace Sys2Proof.Machine

variable (s : State) (r : Response) (w : Word)

@[simp] theorem State.answer_rom : (s.answer r).rom = s.rom := rfl
@[simp] theorem State.answer_inflight : (s.answer r).inflight = s.inflight.tail := rfl
@[simp] theorem State.answer_responses : (s.answer r).responses = s.responses ++ [r] := rfl
@[simp] theorem State.answer_offered : (s.answer r).offered = s.offered := rfl
@[simp] theorem State.answer_delivered : (s.answer r).delivered = s.delivered := rfl
@[simp] theorem State.answer_schedule : (s.answer r).schedule = s.schedule := rfl

@[simp] theorem State.resetBlock_rom : s.resetBlock.rom = s.rom := rfl
@[simp] theorem State.resetBlock_inflight : s.resetBlock.inflight = [] := rfl
@[simp] theorem State.resetBlock_responses : s.resetBlock.responses = [] := rfl
@[simp] theorem State.resetBlock_offered : s.resetBlock.offered = s.offered := rfl
@[simp] theorem State.resetBlock_delivered : s.resetBlock.delivered = s.delivered := rfl
@[simp] theorem State.resetBlock_schedule : s.resetBlock.schedule = s.schedule := rfl

@[simp] theorem State.advance_rom : s.advance.rom = s.rom := rfl
@[simp] theorem State.advance_inflight : s.advance.inflight = s.inflight := rfl
@[simp] theorem State.advance_responses : s.advance.responses = s.responses := rfl
@[simp] theorem State.advance_offered : s.advance.offered = s.offered := rfl
@[simp] theorem State.advance_delivered : s.advance.delivered = s.delivered := rfl
@[simp] theorem State.advance_schedule : s.advance.schedule = s.schedule.tail := rfl

@[simp] theorem State.placeCommand_rom : (s.placeCommand w).rom = s.rom := rfl
@[simp] theorem State.placeCommand_responses : (s.placeCommand w).responses = s.responses := rfl
@[simp] theorem State.placeCommand_offered : (s.placeCommand w).offered = s.offered := rfl
@[simp] theorem State.placeCommand_delivered : (s.placeCommand w).delivered = s.delivered := rfl

@[simp] theorem State.reset_rom : State.reset.rom = Rom.content := rfl
@[simp] theorem State.reset_inflight : State.reset.inflight = [] := rfl
@[simp] theorem State.reset_responses : State.reset.responses = [] := rfl
@[simp] theorem State.reset_offered : State.reset.offered = [] := rfl
@[simp] theorem State.reset_delivered : State.reset.delivered = [] := rfl
@[simp] theorem State.reset_schedule : State.reset.schedule = [] := rfl

/-- Accepting touches INFLIGHT and the port only. -/
@[simp] theorem State.accept_rom : s.accept.rom = s.rom := by
  unfold State.accept; split <;> [rfl; (split <;> rfl)]

@[simp] theorem State.accept_responses : s.accept.responses = s.responses := by
  unfold State.accept; split <;> [rfl; (split <;> rfl)]

@[simp] theorem State.accept_delivered : s.accept.delivered = s.delivered := by
  unfold State.accept; split <;> [rfl; (split <;> rfl)]

@[simp] theorem State.accept_schedule : s.accept.schedule = s.schedule := by
  unfold State.accept; split <;> [rfl; (split <;> rfl)]

/-- A command moves from the port to INFLIGHT: the two together stay as they are. -/
@[simp] theorem State.accept_queue : s.accept.inflight ++ s.accept.offered = s.inflight ++ s.offered := by
  unfold State.accept
  split
  · rfl
  · next h => split <;> simp [h]

/-- Delivering touches the response port only. -/
@[simp] theorem State.deliver_rom : s.deliver.rom = s.rom := by unfold State.deliver; split <;> rfl

@[simp] theorem State.deliver_inflight : s.deliver.inflight = s.inflight := by unfold State.deliver; split <;> rfl

@[simp] theorem State.deliver_offered : s.deliver.offered = s.offered := by unfold State.deliver; split <;> rfl

@[simp] theorem State.deliver_schedule : s.deliver.schedule = s.schedule := by unfold State.deliver; split <;> rfl

/-- A response moves from the block to the host: the two together stay as they are. -/
@[simp] theorem State.deliver_stream : s.deliver.delivered ++ s.deliver.responses = s.delivered ++ s.responses := by
  unfold State.deliver
  split
  · rfl
  · next h => simp [h]

end Sys2Proof.Machine
end

