-- ==== Sys2Proof/Laws/Ops.lean ====
section
/-! SUPPORT. What each shared operation, each event and the step can do, said once. -/

namespace Sys2Proof.Machine

variable {s t : State} {c : Command} {rest : List Command} {f : Rom → Command → QWord} {i : Instr}

/-- With a command in flight, `complete` answers it. -/
theorem State.complete_cons (h : s.inflight = c :: rest) : s.complete f = .next (s.answer (.ok (f s.rom c))) := by
  simp [State.complete, h]

/-- All that `complete` can do when it answers a next state. -/
theorem State.complete_next (h : s.complete f = .next t) :
    ∃ c rest, s.inflight = c :: rest ∧ t = s.answer (.ok (f s.rom c)) := by
  unfold State.complete at h
  split at h
  · cases h
  · next c rest hc => exact ⟨c, rest, hc, by cases h; rfl⟩

/-- `complete` never faults. -/
theorem State.complete_ne_fault (e : Fault) : s.complete f ≠ .fault e := by
  unfold State.complete; split <;> simp

/-- Every meaning is `complete` of a rule of its own. -/
theorem exec_eq_complete (hi : i.wellFormed = true) : ∃ f : Rom → Command → QWord, ∀ s, exec i s = s.complete f := by
  cases i with
  | tblrd row => exact ⟨_, fun s => exec_tblrd_eq s row (by simpa [Instr.wellFormed] using hi)⟩
  | crcb8 => exact ⟨_, exec_crcb8_eq⟩
  | crct8 => exact ⟨_, exec_crct8_eq⟩
  | crct32 => exact ⟨_, exec_crct32_eq⟩
  | crc8 => exact ⟨_, exec_crc8_eq⟩
  | crc16 => exact ⟨_, exec_crc16_eq⟩
  | crc32 => exact ⟨_, exec_crc32_eq⟩
  | crc64 => exact ⟨_, exec_crc64_eq⟩
  | xnmodp => exact ⟨_, exec_xnmodp_eq⟩
  | clmul => exact ⟨_, exec_clmul_eq⟩
  | merge => exact ⟨_, exec_merge_eq⟩
  | fold => exact ⟨_, exec_fold_eq⟩
  | foldred => exact ⟨_, exec_foldred_eq⟩

/-- A term that is not well-formed is a TBLRD of no row, and is refused. -/
theorem exec_not_wellFormed (hi : ¬ i.wellFormed = true) : ∃ row, exec i s = .refused (.noSuchTableRow row) := by
  cases i with
  | tblrd row => exact ⟨row, exec_tblrd_refused s row (by simpa [Instr.wellFormed] using hi)⟩
  | crcb8 | crct8 | crct32 | crc8 | crc16 | crc32 | crc64 | xnmodp | clmul | merge | fold | foldred =>
    exact absurd rfl hi

/-- All that a meaning can do when it answers a next state: one OK response for the oldest command. -/
theorem exec_next (h : exec i s = .next t) : ∃ c rest r, s.inflight = c :: rest ∧ t = s.answer (.ok r) := by
  by_cases hi : i.wellFormed = true
  · obtain ⟨f, hf⟩ := exec_eq_complete hi
    obtain ⟨c, rest, hc, ht⟩ := State.complete_next ((hf s).symm.trans h)
    exact ⟨c, rest, _, hc, ht⟩
  · obtain ⟨row, hr⟩ := exec_not_wellFormed (s := s) hi
    rw [hr] at h; cases h

/-- No meaning faults. -/
theorem exec_ne_fault (e : Fault) : exec i s ≠ .fault e := by
  by_cases hi : i.wellFormed = true
  · obtain ⟨f, hf⟩ := exec_eq_complete hi
    rw [hf]; exact State.complete_ne_fault e
  · obtain ⟨row, hr⟩ := exec_not_wellFormed (s := s) hi
    rw [hr]; simp

/-- Every decoded instruction is well-formed: the ROW field has two bits. -/
theorem decode_wellFormed {w : Word} (h : decode w = .ok i) : i.wellFormed = true := by
  have hrow := (rowField w).isLt
  unfold decode at h
  split at h
  · cases h
  · split at h
    · cases h
    · next j hj =>
      split at h
      · cases h
      · cases h
        unfold opcodeInstr at hj
        split at hj <;> cases hj <;> simp [Instr.wellFormed]
        omega

/-- The step's event is the schedule's head, or the default when the schedule is used up. -/
theorem State.nextEvent_cons {e : Event} {es : List Event} (h : s.schedule = e :: es) : s.nextEvent = e := by
  simp [State.nextEvent, h]

/-- With a used-up schedule and a command in flight the block answers. -/
theorem State.nextEvent_respond (h : s.schedule = []) (hc : s.inflight = c :: rest) : s.nextEvent = .respond := by
  simp [State.nextEvent, h, hc]

/-- With a used-up schedule and nothing in flight the block accepts. -/
theorem State.nextEvent_accept (h : s.schedule = []) (hc : s.inflight = []) : s.nextEvent = .accept := by
  simp [State.nextEvent, h, hc]

/-- Answering when nothing is in flight changes nothing. -/
theorem respond_nil (h : s.inflight = []) : respond s = .next s := by simp [respond, h]

/-- A legal word runs its meaning. -/
theorem respond_legal (h : s.inflight = c :: rest) (hd : decode c.cmd = .ok i) : respond s = exec i s := by
  simp [respond, h, hd]

/-- Any other word is ILLEGAL. -/
theorem respond_illegal {e : Reject} (h : s.inflight = c :: rest) (hd : decode c.cmd = .error e) :
    respond s = .fault (.illegal c.cmd (s.answer .illegal)) := by
  simp [respond, h, hd, raiseIllegal]

/-- All that answering can do: nothing, one OK response, or the ILLEGAL fault. It never refuses. -/
theorem respond_cases (s : State) :
    (s.inflight = [] ∧ respond s = .next s) ∨
    (∃ c rest i r, s.inflight = c :: rest ∧ decode c.cmd = .ok i ∧ respond s = .next (s.answer (.ok r))) ∨
    (∃ c rest e, s.inflight = c :: rest ∧ decode c.cmd = .error e ∧
      respond s = .fault (.illegal c.cmd (s.answer .illegal))) := by
  cases hs : s.inflight with
  | nil => exact .inl ⟨rfl, respond_nil hs⟩
  | cons c rest =>
    cases hd : decode c.cmd with
    | error e => exact .inr (.inr ⟨c, rest, e, rfl, hd, respond_illegal hs hd⟩)
    | ok i =>
      obtain ⟨f, hf⟩ := exec_eq_complete (decode_wellFormed hd)
      exact .inr (.inl ⟨c, rest, i, _, rfl, hd, by rw [respond_legal hs hd, hf, State.complete_cons hs]⟩)

/-- All that a step can do when it answers a next state. -/
theorem step_next (h : step s = .next t) :
    t = s.advance ∨ t = s.advance.accept ∨ t = s.advance.deliver ∨
    (s.nextEvent = .reset ∧ t = s.advance.resetBlock) ∨
    (∃ c rest i r, s.inflight = c :: rest ∧ decode c.cmd = .ok i ∧ t = s.advance.answer (.ok r)) := by
  unfold step runEvent at h
  split at h
  · cases h; exact .inr (.inl rfl)
  · obtain ⟨-, hr⟩ | ⟨c, rest, i, r, hc, hd, hr⟩ | ⟨c, rest, e, hc, hd, hr⟩ := respond_cases s.advance
    · rw [hr] at h; cases h; exact .inl rfl
    · rw [hr] at h; cases h; exact .inr (.inr (.inr (.inr ⟨c, rest, i, r, hc, hd, rfl⟩)))
    · rw [hr] at h; cases h
  · cases h; exact .inr (.inr (.inl rfl))
  · cases h; exact .inl rfl
  · next he => cases h; exact .inr (.inr (.inr (.inl ⟨he, rfl⟩)))

/-- All that a step can do when it faults: the ILLEGAL response of the oldest command. -/
theorem step_fault {e : Fault} (h : step s = .fault e) :
    ∃ c rest x, s.nextEvent = .respond ∧ s.inflight = c :: rest ∧ decode c.cmd = .error x ∧
      e = .illegal c.cmd (s.advance.answer .illegal) := by
  unfold step runEvent at h
  split at h
  · cases h
  · next he =>
    obtain ⟨-, hr⟩ | ⟨c, rest, i, r, hc, hd, hr⟩ | ⟨c, rest, x, hc, hd, hr⟩ := respond_cases s.advance
    · rw [hr] at h; cases h
    · rw [hr] at h; cases h
    · rw [hr] at h; cases h; exact ⟨c, rest, x, he, hc, hd, rfl⟩
  · cases h
  · cases h
  · cases h

/-- No step refuses. -/
theorem step_ne_refused (x : Refusal) : step s ≠ .refused x := by
  unfold step runEvent
  split <;> try simp
  obtain ⟨-, hr⟩ | ⟨c, rest, i, r, hc, hd, hr⟩ | ⟨c, rest, e, hc, hd, hr⟩ := respond_cases s.advance <;> simp [hr]

end Sys2Proof.Machine
end

