-- ==== Sys2Proof/Laws/PerInstr.lean ====
section
/-! SUPPORT. Statements made per instruction. Family `RoundTrip`: the word of a well-formed instruction decodes to it. -/

namespace Sys2Proof.Laws

/-- Decoding an encoded well-formed instruction gives it back (30 R60 to R63). -/
def RoundTrip.Statement (i : Instr) : Prop := i.wellFormed = true → decode (encode i) = .ok i

theorem RoundTrip.crcb8 : RoundTrip.Statement .crcb8 := by intro _; decide
theorem RoundTrip.crct8 : RoundTrip.Statement .crct8 := by intro _; decide
theorem RoundTrip.crct32 : RoundTrip.Statement .crct32 := by intro _; decide
theorem RoundTrip.tblrd (row : Nat) : RoundTrip.Statement (.tblrd row) := by
  intro h
  have hr : row < 4 := by simpa [Instr.wellFormed] using h
  have all : ∀ k : Fin 4, decode (encode (.tblrd k)) = .ok (.tblrd k) := by decide
  exact all ⟨row, hr⟩
theorem RoundTrip.crc8 : RoundTrip.Statement .crc8 := by intro _; decide
theorem RoundTrip.crc16 : RoundTrip.Statement .crc16 := by intro _; decide
theorem RoundTrip.crc32 : RoundTrip.Statement .crc32 := by intro _; decide
theorem RoundTrip.crc64 : RoundTrip.Statement .crc64 := by intro _; decide
theorem RoundTrip.xnmodp : RoundTrip.Statement .xnmodp := by intro _; decide
theorem RoundTrip.clmul : RoundTrip.Statement .clmul := by intro _; decide
theorem RoundTrip.merge : RoundTrip.Statement .merge := by intro _; decide
theorem RoundTrip.fold : RoundTrip.Statement .fold := by intro _; decide
theorem RoundTrip.foldred : RoundTrip.Statement .foldred := by intro _; decide

end Sys2Proof.Laws
end

