-- ==== Sys2Proof/Laws/Procedures.lean ====
section
/-! SUPPORT. What the host's shift operations return, said once: a shift by any number of bits is `mulxn` by it. -/

namespace Sys2Proof.Machine

variable (rom : Rom)

/-- A command whose word decodes and whose meaning is `complete f` returns `f` of its transaction. -/
theorem issue_complete {i : Instr} {f : Rom → Command → QWord} (hd : decode (encode i) = .ok i)
    (hf : ∀ s, exec i s = s.complete f) (s : Word) (a b : QWord) (n : Word) :
    issue rom i s a b n = .ok (f rom ⟨encode i, s, a, b, n⟩) := by
  simp [issue, answerOf, respond, hd, hf, State.complete, State.answer, State.reset, Response.result]

@[simp] theorem zext128_setWidth (r : Word) : (zext128 r).setWidth 32 = r := by
  simp [zext128]

theorem issue_xnmodp (s n : Word) (a b : QWord) :
    issue rom .xnmodp s a b n = .ok (zext128 (mulxn onePoly n.toNat)) := by
  rw [issue_complete rom (by decide) exec_xnmodp_eq, xpow_eq_mulxn]

/-- One MERGE command is the serial shift of its rule. -/
theorem mergeStep_eq (c b : Word) {gap : Nat} (h : gap ≤ maxGap) :
    mergeStep rom c b gap = .ok (mulxn c gap ^^^ b) := by
  have hg : gap < 2 ^ 32 := Nat.lt_of_le_of_lt h (by decide)
  rw [mergeStep, issue_complete rom (by decide) exec_merge_eq]
  simp only [bind, Except.bind, xpow_eq_mulxn, mulMod_mulxn, Command.wordA, zext128_setWidth, BitVec.toNat_ofNat,
    Nat.mod_eq_of_lt hg]

/-- Widest shifts add up. -/
theorem shiftWide_eq (k : Nat) (c : Word) : shiftWide rom k c = .ok (mulxn c (k * maxGap)) := by
  induction k generalizing c with
  | zero => simp [shiftWide]
  | succ k ih =>
    rw [shiftWide, mergeStep_eq rom c _ (Nat.le_refl _), Nat.succ_mul, Nat.add_comm, mulxn_add]
    simp [bind, Except.bind, ih]

/-- The last command of a shift has a gap that fits `N`, and no shift is lost. -/
theorem wideShifts_rest (gap : Nat) :
    wideShifts gap * maxGap ≤ gap ∧ gap - wideShifts gap * maxGap ≤ maxGap := by
  unfold wideShifts maxGap; omega

/-- A gap that fits `N` takes no widest shift. -/
theorem wideShifts_of_fits {gap : Nat} (h : gap ≤ maxGap) : wideShifts gap = 0 := by
  unfold wideShifts maxGap at *; omega

/-- A gap that fits `N` is one MERGE command. -/
theorem mergeBy_of_fits (c b : Word) {gap : Nat} (h : gap ≤ maxGap) :
    mergeBy rom c b gap = mergeStep rom c b gap := by
  simp [mergeBy, wideShifts_of_fits h, shiftWide, bind, Except.bind]

/-- MERGE by any gap is the serial shift. -/
theorem mergeBy_eq (c b : Word) (gap : Nat) : mergeBy rom c b gap = .ok (mulxn c gap ^^^ b) := by
  obtain ⟨h1, h2⟩ := wideShifts_rest gap
  simp only [mergeBy, shiftWide_eq, bind, Except.bind]
  rw [mergeStep_eq rom _ _ h2, ← mulxn_add, Nat.add_sub_of_le h1]

/-- The constant of any exponent is the serial power. -/
theorem powerBy_eq (e : Nat) : powerBy rom e = .ok (mulxn onePoly e) := by
  obtain ⟨h1, h2⟩ := wideShifts_rest e
  have hg : e - wideShifts e * maxGap < 2 ^ 32 := Nat.lt_of_le_of_lt h2 (by decide)
  simp only [powerBy, issue_xnmodp, bind, Except.bind, shiftWide_eq, zext128_setWidth, BitVec.toNat_ofNat,
    Nat.mod_eq_of_lt hg]
  rw [← mulxn_add, Nat.sub_add_cancel h1]

/-- A short input to the block path falls back to the native scalar procedure. -/
theorem foldProcedure_short {minBlocks : Nat} {data : List Byte} (h : data.length < 16 * minBlocks) (addr : Nat)
    (r : Word) : foldProcedure rom minBlocks addr r data = scalarProcedure rom addr r data := by
  simp [foldProcedure, Nat.not_le.mpr h]

/-- All that the dispatcher can do: the native scalar procedure, or a block procedure whose threshold is reached. -/
theorem dispatch_cases (p : HostParams) (addr : Nat) (r : Word) (data : List Byte) :
    (p.mergeMinBlocks * p.merge.bytes ≤ data.length ∧
      dispatch rom p addr r data = mergeProcedure rom p.merge addr r data) ∨
    (16 * p.foldMinBlocks ≤ data.length ∧
      dispatch rom p addr r data = foldProcedure rom p.foldMinBlocks addr r data) ∨
    (data.length < p.mergeMinBlocks * p.merge.bytes ∧ data.length < 16 * p.foldMinBlocks ∧
      dispatch rom p addr r data = scalarProcedure rom addr r data) := by
  by_cases hm : p.mergeMinBlocks * p.merge.bytes ≤ data.length <;>
    by_cases hf : 16 * p.foldMinBlocks ≤ data.length <;>
    cases hp : p.preferMerge <;>
    simp [dispatch, HostParams.mergeReached, HostParams.foldReached, hm, hf, hp] <;> omega

end Sys2Proof.Machine
end

