-- ==== Sys2Proof/Tests/Slice0.lean ====
section
/-! SUPPORT. The model's own tests, and a witness for the hypotheses of each statement. Expected values come from
spec 95_test_vectors.md (sections named beside each test) and from the command rules. -/

namespace Sys2Proof.Tests

open Sys2Proof Sys2Proof.Machine

/-- A reset block with these commands in flight. -/
def busy (cs : List Command) : State := { State.reset with inflight := cs }

/-- The `R` of one command, by one step. -/
def oneStep (w s : Word) (a b : QWord) (n : Word) : Option QWord :=
  match step (busy [⟨w, s, a, b, n⟩]) with
  | .next t => t.responses.head?.bind Response.result
  | .fault _ => none
  | .refused _ => none

/-! ### Well-formedness: each check refuses an ill-formed term -/

theorem test_wellFormed_refuses_row_four : Instr.wellFormed (.tblrd 4) = false := by decide
theorem test_wellFormed_takes_row_three : Instr.wellFormed (.tblrd 3) = true := by decide

/-! ### Decoding: words written out bit by bit from 30 R60 (RSV1 22 bits, ROW 2, RSV0 3, OPC 5) -/

theorem test_decode_crcb8 : decode 0b0000000000000000000000_00_000_00001#32 = .ok .crcb8 := by decide
theorem test_decode_crct8 : decode 0b0000000000000000000000_00_000_00010#32 = .ok .crct8 := by decide
theorem test_decode_crct32 : decode 0b0000000000000000000000_00_000_00011#32 = .ok .crct32 := by decide
theorem test_decode_tblrd : decode 0b0000000000000000000000_10_000_00100#32 = .ok (.tblrd 2) := by decide
theorem test_decode_crc8 : decode 0b0000000000000000000000_00_000_01000#32 = .ok .crc8 := by decide
theorem test_decode_crc16 : decode 0b0000000000000000000000_00_000_01001#32 = .ok .crc16 := by decide
theorem test_decode_crc32 : decode 0b0000000000000000000000_00_000_01010#32 = .ok .crc32 := by decide
theorem test_decode_crc64 : decode 0b0000000000000000000000_00_000_01011#32 = .ok .crc64 := by decide
theorem test_decode_xnmodp : decode 0b0000000000000000000000_00_000_10000#32 = .ok .xnmodp := by decide
theorem test_decode_clmul : decode 0b0000000000000000000000_00_000_10001#32 = .ok .clmul := by decide
theorem test_decode_merge : decode 0b0000000000000000000000_00_000_10010#32 = .ok .merge := by decide
theorem test_decode_fold : decode 0b0000000000000000000000_00_000_11000#32 = .ok .fold := by decide
theorem test_decode_foldred : decode 0b0000000000000000000000_00_000_11001#32 = .ok .foldred := by decide

/-- 95 section 2.9: the illegal words. -/
theorem test_decode_illegal_words :
    [0x00000000#32, 0x00000005#32, 0x0000001F#32, 0x00000021#32, 0x00000101#32, 0x00000318#32, 0x00000404#32,
      0x8000000B#32, 0xFFFFFFFF#32].all (fun w => match decode w with | .ok _ => false | .error _ => true) = true := by
  decide

theorem test_decodeTableWord_tblrd : decodeTableWord 32 0x304 = some (.tblrd 3) := by decide

/-! ### One step per command (95 section 2) -/

theorem test_crcb8 : oneStep 0x01#32 0x12345678#32 0x9A#128 0#128 0#32 = some 0x0219ECBB#128 := by decide +kernel
theorem test_crct8 : oneStep 0x02#32 0xFFFFFFFF#32 0xFF#128 0#128 0#32 = some 0x00FFFFFF#128 := by decide +kernel
theorem test_crct32 : oneStep 0x03#32 0x12345678#32 0xF0DEBC9A#128 0#128 0#32 = some 0x887935D0#128 := by
  decide +kernel
theorem test_tblrd : oneStep 0x204#32 0#32 0x55#128 0#128 0#32 = some 0x8C58CB37#128 := by decide +kernel
theorem test_tblrd_ignores_bit_eight : oneStep 0x304#32 7#32 0x1FF#128 9#128 1#32 = some 0x2803E842#128 := by
  decide +kernel
theorem test_crc8 : oneStep 0x08#32 0x12345678#32 0x9A#128 0#128 0#32 = some 0x0219ECBB#128 := by decide +kernel
theorem test_crc16 : oneStep 0x09#32 0x12345678#32 0xBC9A#128 0#128 0#32 = some 0xD4C87D07#128 := by decide +kernel
theorem test_crc32 : oneStep 0x0A#32 0xDEADBEEF#32 0#128 0#128 0#32 = some 0x09991D14#128 := by decide +kernel
theorem test_crc64 : oneStep 0x0B#32 0x12345678#32 0x0123456789ABCDEF#128 0#128 0#32 = some 0xA3D207BE#128 := by
  decide +kernel
theorem test_xnmodp : oneStep 0x10#32 0#32 0#128 0#128 5471#32 = some 0x96C515BB#128 := by decide +kernel
theorem test_xnmodp_greatest : oneStep 0x10#32 0#32 0#128 0#128 0xFFFFFFFF#32 = some 0x40000000#128 := by
  decide +kernel
theorem test_clmul : oneStep 0x11#32 0#32 0x123456789ABCDEF0#128 0x0FEDCBA987654321#128 0#32 =
    some 0x00E038D8688850B040A0789828C810F0#128 := by decide +kernel
theorem test_clmul_ignores_high_half :
    oneStep 0x11#32 0#32 0xFFFF0000000000000000000000000007#128 0x5#128 0#32 = some 0x1B#128 := by decide +kernel
theorem test_merge : oneStep 0x12#32 0x09C50B11#32 0xC6C713ED#128 0#128 40#32 = some 0x1CF96D7C#128 := by
  decide +kernel
theorem test_merge_greatest_gap :
    oneStep 0x12#32 0xDEADBEEF#32 1#128 0#128 0xFFFFFFFF#32 = some 0xEDA0E40E#128 := by decide +kernel
theorem test_fold : oneStep 0x18#32 0#32 0x0123456789ABCDEF0FEDCBA987654321#128 0#128 0#32 =
    some 0x000000000551BA7B2880AD282DD11753#128 := by decide +kernel
theorem test_foldred : oneStep 0x19#32 0#32 0x0123456789ABCDEF0FEDCBA987654321#128 0#128 0#32 =
    some 0x220AAB20#128 := by decide +kernel

/-! ### The ROM, the primitives and the host (95 sections 1.1, 1.4, 4) -/

theorem test_rom_row_one : Rom.content.entry 1 0x55#8 = 0x9DFACE2E#32 := by decide +kernel
theorem test_rom_row_three_last : Rom.content.entry 3 0xFF#8 = 0x2803E842#32 := by decide +kernel
theorem test_compute_check_value :
    compute 0#32 [0x31#8, 0x32#8, 0x33#8, 0x34#8, 0x35#8, 0x36#8, 0x37#8, 0x38#8, 0x39#8] = 0xE3069283#32 := by
  decide +kernel
theorem test_readBuffer_unreadable :
    readBuffer [(5, 0x31#8), (6, 0x32#8)] 5 3 = .error (.unreadable 7) := by decide

/-! ### Events -/

theorem test_reset_event_drops_both_queues :
    step { busy [⟨1#32, 0#32, 0#128, 0#128, 0#32⟩] with responses := [.illegal], schedule := [.reset] } =
      .next State.reset := by rfl
theorem test_deliver_takes_the_oldest :
    step { State.reset with responses := [.ok 1#128, .illegal], schedule := [.deliver] } =
      .next { State.reset with responses := [.illegal], delivered := [.ok 1#128] } := by rfl
theorem test_illegal_keeps_its_place :
    step (busy [⟨0x101#32, 5#32, 0#128, 0#128, 0#32⟩]) =
      .fault (.illegal 0x101#32 { State.reset with responses := [.illegal] }) := by rfl
theorem test_idle_block_waits : step State.reset = .next State.reset := by rfl
theorem test_withFetchWord_runs_next :
    step (State.reset.withFetchWord 32 0x10) = .next { State.reset with responses := [.ok 0x80000000#128] } := by rfl

/-! ### The assembler (30 R67) -/

theorem test_assemble_tblrd : assemble ['T', 'B', 'L', 'R', 'D', ' ', '3', ',', ' ', 'a', '=', '0', 'x', '0', '1'] =
    some ⟨0x00000304#32, 0#32, 1#128, 0#128, 0#32⟩ := by decide
theorem test_assemble_refuses_unread_field : assemble ['X', 'N', 'M', 'O', 'D', 'P', ' ', 's', '=', '1'] = none := by
  decide

/-! ### A witness for the hypotheses of each statement that has some

Each theorem is named after its statement and shows concrete values that meet the hypotheses of every clause. -/

/-- A command with the given word and small operands. -/
def command (w : Word) : Command := ⟨w, 0x12345678#32, 0x9A#128, 3#128, 2#32⟩

theorem illegal_word_101 : ¬ ∃ i, decode 0x101#32 = .ok i := by
  rintro ⟨i, h⟩
  have : decode 0x101#32 = .error (.rowNotZero 1) := by decide
  rw [this] at h; cases h

theorem witness_LegalExactlyWhenOneTableRowMatches :
    (⟨"TBLRD", 0xFFFFFCFF#32, 0x04#32⟩ : OpcodeRow) ∈ opcodeRows ∧ 0x304#32 &&& 0xFFFFFCFF#32 = 0x04#32 ∧
    Instr.wellFormed (.tblrd 3) = true ∧ Instr.opcode (.tblrd 3) = 4 ∧ Instr.opcode .foldred ≠ 4 := by decide

theorem witness_IllegalWordsAreUnassignedReservedOrRowWords :
    (busy [command 0x101#32]).inflight = command 0x101#32 :: [] ∧ ¬ ∃ i, decode (command 0x101#32).cmd = .ok i :=
  ⟨rfl, illegal_word_101⟩

theorem witness_StepRunsTheDecodedCommand :
    (busy [command 0x304#32]).inflight = command 0x304#32 :: [] ∧ decode (command 0x304#32).cmd = .ok (.tblrd 3) ∧
    (busy [command 0x304#32]).schedule = [] ∧
    { busy [command 0x304#32] with schedule := [.respond, .wait] }.schedule = .respond :: [.wait] ∧
    decodeTableWord 32 0x304 = some (.tblrd 3) := by
  refine ⟨rfl, ?_, rfl, rfl, ?_⟩ <;> decide

theorem witness_IllegalWordFaultsAndOnlyTakesItsPlace :
    (busy [command 0x101#32]).inflight = ⟨0x101#32, 0x12345678#32, 0x9A#128, 3#128, 2#32⟩ :: [] ∧
    (¬ ∃ i, decode 0x101#32 = .ok i) ∧ (busy [command 0x101#32]).nextEvent = .respond ∧
    step (busy [command 0x101#32, command 0x01#32]) =
      .fault (.illegal 0x101#32 { busy [command 0x01#32] with responses := [.illegal] }) ∧
    { busy [command 0x01#32] with responses := [.illegal] }.inflight = command 0x01#32 :: [] ∧
    decode (command 0x01#32).cmd = .ok .crcb8 :=
  ⟨rfl, illegal_word_101, rfl, rfl, rfl, by decide⟩

theorem witness_AfterIllegalTheNextCommandIsUnaffected :
    (busy [command 0x101#32, command 0x01#32]).inflight = command 0x101#32 :: command 0x01#32 :: [] ∧
    (¬ ∃ i, decode (command 0x101#32).cmd = .ok i) ∧ (∃ i, decode (command 0x01#32).cmd = .ok i) ∧
    respond (busy [command 0x101#32, command 0x01#32]) =
      .fault (.illegal 0x101#32 { busy [command 0x01#32] with responses := [.illegal] }) :=
  ⟨rfl, illegal_word_101, ⟨.crcb8, by decide⟩, rfl⟩

theorem witness_LegalCommandAlwaysCompletesWithOk :
    (busy [command 0x19#32]).inflight = command 0x19#32 :: [] ∧ decode (command 0x19#32).cmd = .ok .foldred :=
  ⟨rfl, by decide⟩

/-- Both clauses: an empty INFLIGHT, and one that is just full. -/
theorem witness_AcceptTakesTheOldestOfferedWhenThereIsRoom :
    (let s := { State.reset with offered := [command 1#32] }
     s.nextEvent = .accept ∧ s.offered = command 1#32 :: [] ∧ s.inflight.length < Config.maxInflight) ∧
    (let s : State := { State.reset with
       offered := [command 1#32], inflight := List.replicate Config.maxInflight (command 1#32), schedule := [.accept] }
     s.nextEvent = .accept ∧ s.offered = command 1#32 :: [] ∧ Config.maxInflight ≤ s.inflight.length) := by
  refine ⟨⟨rfl, rfl, Nat.succ_pos _⟩, rfl, rfl, by simp⟩

theorem witness_EveryStepKeepsTheResponseStream :
    (busy []).nextEvent ≠ .reset ∧ step (busy []) = .next (busy []) ∧
    (busy [command 0x101#32]).nextEvent ≠ .reset ∧
    step (busy [command 0x101#32]) = .fault (.illegal 0x101#32 { State.reset with responses := [.illegal] }) := by
  refine ⟨?_, rfl, ?_, rfl⟩ <;> decide

theorem witness_EveryCommandIsAnsweredWithoutReset :
    Event.reset ∉ { busy [command 1#32, command 0x101#32] with
      schedule := [.deliver, .accept, .wait, .respond], offered := [command 0x12#32] }.schedule := by decide

theorem reset_inv : State.reset.Inv := ⟨rfl, Nat.zero_le _⟩

theorem witness_EveryStepKeepsTheBlockInvariant :
    State.reset.Inv ∧ step State.reset = .next State.reset ∧ (busy [command 0x101#32]).Inv ∧
    step (busy [command 0x101#32]) = .fault (.illegal 0x101#32 { State.reset with responses := [.illegal] }) :=
  ⟨reset_inv, rfl, ⟨rfl, Nat.le_add_left 1 _⟩, rfl⟩

theorem witness_RomIsReadOnlyWithItsContentFromReset :
    step State.reset = .next State.reset ∧
    step (busy [command 0x101#32]) = .fault (.illegal 0x101#32 { State.reset with responses := [.illegal] }) :=
  ⟨rfl, rfl⟩

theorem witness_ResetDropsAcceptedCommandsAndUndeliveredResponses :
    { busy [command 1#32] with schedule := [.reset], responses := [.illegal] }.nextEvent = .reset := rfl

theorem witness_AfterResetACommandIsAcceptedAndAnsweredAtOnce : decode (command 0x0B#32).cmd = .ok .crc64 := by decide

theorem witness_ResultDependsOnCommandAndRomAlone :
    decode (command 0x18#32).cmd = .ok .fold ∧ (busy [command 0x18#32, command 0x18#32]).rom = Rom.content ∧
    (busy [command 0x18#32, command 0x18#32]).inflight = command 0x18#32 :: command 0x18#32 :: [] :=
  ⟨by decide, rfl, rfl⟩

theorem witness_UnreadBitsAreIgnoredAndResultsHaveTheirWidth :
    decode (command 0x08#32).cmd = .ok .crc8 ∧
    AgreeOnReads .crc8 (command 0x08#32) ⟨0x08#32, 0x12345678#32, 0xFF9A#128, 7#128, 9#32⟩ :=
  ⟨by decide, ⟨rfl, fun _ _ => rfl, by decide, by decide, by decide⟩⟩

theorem witness_StatesWithoutIllegalWordsNeverFault :
    ({ busy [command 0x10#32] with offered := [command 0x304#32] } : State).AllLegal := by
  constructor <;> intro c hc <;> simp [busy] at hc <;> subst hc
  · exact ⟨.xnmodp, by decide⟩
  · exact ⟨.tblrd 3, by decide⟩

theorem witness_LittleEndianBytesKeepTheMessage : 3 < 4 := by decide

theorem witness_ClmulIsTheProductOverGf2 : 126 < 128 := by decide

/-- The hypotheses of `CompletesWith` and `CompletesOnContentWith`, which state every command's result: a state with
the content in its ROM and the command in flight. -/
theorem busy_meets_completion (c : Command) : (busy [c]).rom = Rom.content ∧ (busy [c]).inflight = c :: [] := ⟨rfl, rfl⟩

theorem witness_TblrdReadsOneTableEntry :
    (busy [command 0x304#32]).rom = Rom.content ∧ (busy [command 0x304#32]).inflight = command 0x304#32 :: [] :=
  busy_meets_completion _

theorem witness_CrcbEightStepsOneByteBitSerially :
    (busy [command 0x01#32]).rom = Rom.content ∧ (busy [command 0x01#32]).inflight = command 0x01#32 :: [] :=
  busy_meets_completion _

theorem witness_CrctEightLooksUpOneByteAndEqualsCrcbEight :
    (busy [command 0x02#32]).rom = Rom.content ∧ (busy [command 0x02#32]).inflight = command 0x02#32 :: [] :=
  busy_meets_completion _

theorem witness_CrctThirtyTwoSlicesFourBytes :
    (busy [command 0x03#32]).rom = Rom.content ∧ (busy [command 0x03#32]).inflight = command 0x03#32 :: [] :=
  busy_meets_completion _

theorem witness_CrcEightStepsOneByte :
    (busy [command 0x08#32]).rom = Rom.content ∧ (busy [command 0x08#32]).inflight = command 0x08#32 :: [] :=
  busy_meets_completion _

theorem witness_CrcSixteenStepsTwoBytes :
    (busy [command 0x09#32]).rom = Rom.content ∧ (busy [command 0x09#32]).inflight = command 0x09#32 :: [] :=
  busy_meets_completion _

theorem witness_CrcThirtyTwoStepsFourBytes :
    (busy [command 0x0A#32]).rom = Rom.content ∧ (busy [command 0x0A#32]).inflight = command 0x0A#32 :: [] :=
  busy_meets_completion _

theorem witness_CrcSixtyFourStepsEightBytes :
    (busy [command 0x0B#32]).rom = Rom.content ∧ (busy [command 0x0B#32]).inflight = command 0x0B#32 :: [] :=
  busy_meets_completion _

theorem witness_ClmulGivesTheFullProduct :
    (busy [command 0x11#32]).rom = Rom.content ∧ (busy [command 0x11#32]).inflight = command 0x11#32 :: [] :=
  busy_meets_completion _

theorem witness_FoldMultipliesTheLanesAndXorsTheBlock :
    (busy [command 0x18#32]).rom = Rom.content ∧ (busy [command 0x18#32]).inflight = command 0x18#32 :: [] :=
  busy_meets_completion _

theorem witness_FoldredReducesTheAccumulator :
    (busy [command 0x19#32]).rom = Rom.content ∧ (busy [command 0x19#32]).inflight = command 0x19#32 :: [] :=
  busy_meets_completion _

theorem witness_XnmodpIsTheSerialPowerForEveryExponent :
    (busy [command 0x10#32]).inflight = command 0x10#32 :: [] ∧ (31#32).toNat ≤ 31 := ⟨rfl, by decide⟩

theorem witness_MergeShiftsTheFirstCrcByEveryGap :
    (busy [command 0x12#32]).inflight = command 0x12#32 :: [] ∧ 8 * 0x1FFFFFFF < 2 ^ 32 := ⟨rfl, by decide⟩

theorem witness_TblrdOfNoRowIsRefused : 4 ≤ 4 := by decide

theorem witness_PowersAdd :
    (0xFFFFFFFE#32).toNat + (1#32).toNat < 2 ^ 32 ∧ (0xFFFFFFFE#32).toNat + 1 < 2 ^ 32 := by decide

theorem witness_MergeIsLinearAndItsShiftsAdd : (0xFFFFFFFE#32).toNat + (1#32).toNat < 2 ^ 32 := by decide

theorem witness_ClmulIsCommutativeBilinearAndBounded :
    63 < 64 ∧ 1 ≤ 32 ∧ 1 ≤ 1 ∧ (0xFFFFFFFF#64).toNat < 2 ^ 32 ∧ (1#64).toNat < 2 ^ 1 := by decide

theorem witness_MergeOfPartsIsTheCrcOfTheWhole : 8 * [0x35#8, 0x36#8].length < 2 ^ 32 := by decide

theorem witness_CrcOfProductReducesWithOffsetThirtyThree : 33 ≤ (33#32).toNat := by decide

theorem witness_NativeStepsAreRemaindersOfTheirMessage :
    (Instr.crc64, 64) ∈ [(Instr.crc8, 8), (Instr.crc16, 16), (Instr.crc32, 32), (Instr.crc64, 64)] := by decide

theorem witness_SeedIsAnXorIntoTheFirstBytes :
    4 ≤ (harnessBuffer 4).length ∧ 16 ≤ (harnessBuffer 16).length := by decide

theorem witness_FoldChainGivesTheCrc :
    (harnessBuffer 16).length = 16 ∧ (∀ b ∈ [harnessBuffer 16, harnessBuffer 16], b.length = 16) ∧
    (harnessBuffer 15).length < 16 := by decide

theorem witness_EveryEngineReturnsTheSerialCrc :
    1 ≤ (⟨1, 0⟩ : MergeShape).words ∧ 2 ≤ 2 ∧ 16 ≤ (harnessBuffer 16).length := by decide

theorem witness_MergeBlockBothWaysIsTheCrcOfTheBlock :
    1 ≤ (⟨1, 0⟩ : MergeShape).words ∧ (harnessBuffer 24).length = (⟨1, 0⟩ : MergeShape).bytes := by decide

/-- A readable buffer and an unreadable one. -/
theorem witness_DispatchedComputeOverAReadableBuffer :
    2 ≤ (⟨2, ⟨42, 2⟩, 2, true⟩ : HostParams).foldMinBlocks ∧ 1 ≤ (⟨2, ⟨42, 2⟩, 2, true⟩ : HostParams).merge.words ∧
    readBuffer [(5, 0x31#8), (6, 0x32#8)] 5 2 = .ok [0x31#8, 0x32#8] ∧
    (∃ j < 3, ∀ cell ∈ ([(5, 0x31#8), (6, 0x32#8)] : List Host.Cell), cell.1 ≠ 5 + j) := by decide

/-- The longest second shard whose bits fit N, and the shortest that needs the composed shift. -/
theorem witness_ShardsCombineToTheWhole :
    8 * (List.replicate 536870911 (0#8 : Byte)).length < 2 ^ 32 ∧
    wideShifts (8 * (List.replicate 536870911 (0#8 : Byte)).length) = 0 ∧
    wideShifts (8 * (List.replicate 536870912 (0#8 : Byte)).length) = 1 := by
  simp only [List.length_replicate]; decide

theorem witness_KnownVectorsHoldForEveryEngine :
    2 ≤ (⟨2, ⟨1, 0⟩, 2, true⟩ : HostParams).foldMinBlocks ∧ 1 ≤ (⟨2, ⟨1, 0⟩, 2, true⟩ : HostParams).merge.words ∧
    foldProcedure Rom.content 2 3 ∈ [naiveProcedure Rom.content, foldProcedure Rom.content 2 3] :=
  ⟨by decide, by decide, by simp⟩

/-- The forms with the fields written that fit (one at its largest value, one omitted), and a line's operands. -/
theorem witness_AssemblerWritesFieldsAndZerosTheRest :
    Instr.wellFormed (.tblrd 3) = true ∧ (∀ row, Instr.tblrd 3 = .tblrd row → parseValue ['3'] = some row) ∧
    (⟨none, some ['0', 'x', '0', '1'], none, none⟩ : FieldTexts).Fits (.tblrd 3) ∧
    (⟨some "0xFFFFFFFF".toList, none, none, some ['4', '0']⟩ : FieldTexts).Fits .merge ∧
    fieldValues (writableFields .crc64) ["a=16".toList] = some [('s', 0), ('a', 16)] ∧
    assemble "CRC64 a=16".toList = some ⟨0x0B#32, 0#32, 16#128, 0#128, 0#32⟩ := by
  refine ⟨by decide, fun row h => by cases h; decide, ⟨trivial, ⟨by decide, 1, by decide, by decide⟩, trivial, trivial⟩,
    ⟨⟨by decide, 0xFFFFFFFF, by decide, by decide⟩, trivial, trivial, ⟨by decide, 40, by decide, by decide⟩⟩,
    by decide, by decide⟩

/-- 30 R67: the text of a form, with the rule's own example. -/
theorem test_form_lines :
    formLine (.tblrd 3) ['3'] ⟨none, some ['0', 'x', '0', '1'], none, none⟩ = "TBLRD 3, a=0x01".toList ∧
    formLine .merge [] ⟨some ['1'], some ['2'], none, some ['4', '0']⟩ = "MERGE s=1, a=2, n=40".toList := by decide

/-- One state for each clause. -/
theorem witness_PortEventsMoveTheOldestItemOrNothing :
    (let s : State := { State.reset with responses := [.illegal, .ok 7#128], schedule := [.deliver] }
     s.nextEvent = .deliver ∧ s.responses = .illegal :: [.ok 7#128]) ∧
    (let s : State := { State.reset with schedule := [.deliver] }
     s.nextEvent = .deliver ∧ s.responses = []) ∧
    (State.reset.nextEvent = .accept ∧ State.reset.offered = []) ∧
    (let s : State := { State.reset with schedule := [.respond] }
     s.nextEvent = .respond ∧ s.inflight = []) ∧
    ({ State.reset with schedule := [.wait] } : State).nextEvent = .wait := ⟨⟨rfl, rfl⟩, ⟨rfl, rfl⟩, ⟨rfl, rfl⟩, ⟨rfl, rfl⟩, rfl⟩

/-! ### Host procedures on short inputs and wide shifts -/

/-- 95 section 1.3, L = 0 and L = 1: a short input to the fold path falls back. -/
theorem test_fold_short_input :
    computeBy (foldProcedure Rom.content 2 1) 0#32 [] = .ok 0#32 ∧
    computeBy (foldProcedure Rom.content 2 1) 0#32 (harnessBuffer 1) = .ok 0xA016D052#32 := by decide

/-- By 40 R100 x^(2^32-1) is x, so a shift by one bit more is x^2, 0x20000000. -/
theorem test_merge_gap_beyond_n :
    wideShifts 4294967295 = 0 ∧ wideShifts 4294967296 = 1 ∧ wideShifts 0 = 0 ∧
    mergeBy Rom.content 0x80000000#32 0#32 4294967296 = .ok 0x20000000#32 := by decide

end Sys2Proof.Tests
end

section
/-! Values as polynomials over GF(2) (spec 00 R9 to R17): the rules of `msgBits`, `poly32` and `polyInt`, remainders
modulo `genP`, and what the primitives do to the polynomials. -/

namespace Sys2Proof.Machine

open Polynomial

/-! ### Bits as coefficients -/

/-- Addition over GF(2) is XOR: the term of one bit of an XOR. -/
theorem ite_xor_eq_add (x y : Bool) (p : Gf2Poly) :
    (if (x ^^ y) = true then p else 0) = (if x = true then p else 0) + if y = true then p else 0 := by
  cases x <;> cases y <;> simp [CharTwo.add_self_eq_zero]

theorem poly32_eq_msgBits (r : Word) : poly32 r = msgBits r := rfl

@[simp] theorem msgBits_zero (w : Nat) : msgBits 0#w = 0 := by simp [msgBits]

theorem msgBits_xor {w : Nat} (a b : BitVec w) : msgBits (a ^^^ b) = msgBits a + msgBits b := by
  simp only [msgBits, BitVec.getLsbD_xor, ite_xor_eq_add, Finset.sum_add_distrib]

theorem poly32_xor (a b : Word) : poly32 (a ^^^ b) = poly32 a + poly32 b := msgBits_xor a b

theorem degree_msgBits_lt {w : Nat} (d : BitVec w) : (msgBits d).degree < w := by
  rw [← mem_degreeLT]
  refine Submodule.sum_mem _ fun i hi => ?_
  have hexp : w - 1 - i < w := by have := Finset.mem_range.mp hi; omega
  split
  · exact mem_degreeLT.mpr ((degree_X_pow_le _).trans_lt (by exact_mod_cast hexp))
  · exact Submodule.zero_mem _

theorem degree_poly32_lt (r : Word) : (poly32 r).degree < (32 : Nat) := degree_msgBits_lt r

/-- A message in two parts: the first `k` bits, moved up by the number of the rest, and the rest. -/
theorem msgBits_setWidth_add {w : Nat} (v : BitVec w) (k l : Nat) :
    msgBits (v.setWidth (k + l)) = msgBits (v.setWidth k) * X ^ l + msgBits ((v >>> k).setWidth l) := by
  unfold msgBits
  rw [Finset.sum_range_add, Finset.sum_mul]
  congr 1
  · refine Finset.sum_congr rfl fun i hi => ?_
    have hik := Finset.mem_range.mp hi
    have hexp : k + l - 1 - i = k - 1 - i + l := by omega
    simp [hik, Nat.lt_add_right l hik, hexp, pow_add, ite_mul]
  · refine Finset.sum_congr rfl fun j hj => ?_
    have hjl := Finset.mem_range.mp hj
    have hexp : k + l - 1 - (k + j) = l - 1 - j := by omega
    simp [hjl, hexp]

/-- Zeros after a message move it up. -/
theorem msgBits_setWidth_of_le {w : Nat} (d : BitVec w) (l : Nat) :
    msgBits (d.setWidth (w + l)) = msgBits d * X ^ l := by
  have hrest : d >>> w = 0#w := BitVec.eq_of_getLsbD_eq fun i _ => by simp
  rw [msgBits_setWidth_add, hrest]
  simp

/-! ### Remainders modulo the generator -/

theorem genP_eq : genP = X ^ 32 + poly32 castagnoli := by
  simp [genP, poly32, castagnoli, Finset.sum_range_succ, add_assoc]

theorem genP_monic : genP.Monic := by
  rw [genP_eq]
  exact monic_X_pow_add (degree_poly32_lt castagnoli)

theorem degree_genP : genP.degree = (32 : Nat) := by
  have hlow : (poly32 castagnoli).degree < (X ^ 32 : Gf2Poly).degree := by
    rw [degree_X_pow]
    exact degree_poly32_lt castagnoli
  rw [genP_eq, degree_add_eq_left_of_degree_lt hlow, degree_X_pow]

/-- The residue class of a polynomial modulo `genP`: congruences become equations in a ring. -/
noncomputable abbrev residue : Gf2Poly →+* AdjoinRoot genP := AdjoinRoot.mk genP

/-- A represented polynomial is the remainder of every polynomial of its residue class. -/
theorem poly32_eq_modByMonic_iff (r : Word) (p : Gf2Poly) :
    poly32 r = p %ₘ genP ↔ residue (poly32 r) = residue p := by
  have hself : poly32 r %ₘ genP = poly32 r :=
    (modByMonic_eq_self_iff genP_monic).mpr (by rw [degree_genP]; exact degree_poly32_lt r)
  constructor
  · intro h
    rw [h, AdjoinRoot.mk_eq_mk, modByMonic_eq_sub_mul_div, sub_sub_cancel_left, dvd_neg]
    exact dvd_mul_right _ _
  · intro h
    rw [← hself]
    exact modByMonic_eq_of_dvd_sub genP_monic (AdjoinRoot.mk_eq_mk.mp h)

/-! ### The steps of the remainder -/

/-- Multiplication by x is the shift, and the bit shifted out is `x^32`. -/
theorem X_mul_poly32 (r : Word) :
    X * poly32 r = poly32 (r >>> 1) + if r.getLsbD 0 = true then X ^ 32 else 0 := by
  have hsplit : poly32 r = msgBits (r.setWidth 1) * X ^ 31 + msgBits ((r >>> 1).setWidth 31) := by
    rw [poly32_eq_msgBits, ← msgBits_setWidth_add r 1 31, BitVec.setWidth_eq]
  have hshift : poly32 (r >>> 1) = msgBits ((r >>> 1).setWidth 31) * X := by
    have hlast : (r >>> 1 >>> 31).setWidth 1 = 0#1 := BitVec.eq_of_getLsbD_eq fun i _ => by simp
    have hadd := msgBits_setWidth_add (r >>> 1) 31 1
    rwa [hlast, msgBits_zero, add_zero, pow_one, BitVec.setWidth_eq] at hadd
  have hfirst : msgBits (r.setWidth 1) = if r.getLsbD 0 = true then 1 else 0 := by
    rw [msgBits, Finset.sum_range_one]
    simp
  rw [hsplit, hshift, hfirst]
  split <;> ring

/-- Where the bit shifted out is 1, `mulx` takes `genP` away. -/
theorem X_mul_poly32_eq_mulx (r : Word) :
    X * poly32 r = poly32 (mulx r) + if r.getLsbD 0 = true then genP else 0 := by
  rw [X_mul_poly32, mulx]
  split
  · have hcancel : poly32 castagnoli + poly32 castagnoli = 0 := CharTwo.add_self_eq_zero _
    rw [poly32_xor, genP_eq]
    linear_combination -hcancel
  · rfl

theorem residue_mulx (r : Word) : residue (poly32 (mulx r)) = residue (X * poly32 r) := by
  rw [X_mul_poly32_eq_mulx, map_add]
  split
  · rw [AdjoinRoot.mk_self, add_zero]
  · rw [map_zero, add_zero]

theorem residue_mulxn (r : Word) (n : Nat) : residue (poly32 (mulxn r n)) = residue (X ^ n * poly32 r) := by
  induction n with
  | zero => simp
  | succ n ih => rw [mulxn_succ, residue_mulx, map_mul, ih, ← map_mul, pow_succ', mul_assoc]

/-- A byte in the low bits of a word: its message, 24 places up. -/
theorem poly32_setWidth_byte (d : Byte) : poly32 (d.setWidth 32) = msgBits d * X ^ 24 :=
  msgBits_setWidth_of_le d 24

theorem residue_crcByte (r : Word) (d : Byte) :
    residue (poly32 (crcByte r d)) = residue (poly32 r * X ^ 8 + msgBits d * X ^ 32) := by
  rw [crcByte, residue_mulxn, poly32_xor, poly32_setWidth_byte]
  congr 1
  ring

theorem residue_crcBytes (r : Word) (ds : List Byte) :
    residue (poly32 (crcBytes r ds)) = residue (poly32 r * X ^ (8 * ds.length) + msgBytes ds * X ^ 32) := by
  induction ds generalizing r with
  | nil => simp [crcBytes, msgBytes]
  | cons d ds ih =>
    have hstep := residue_crcByte r d
    rw [crcBytes_cons, ih, msgBytes, List.length_cons]
    simp only [map_add, map_mul, map_pow] at hstep ⊢
    rw [hstep]
    ring

/-! ### Little-endian bytes -/

@[simp] theorem length_leBytes {w : Nat} (v : BitVec w) (m : Nat) : (leBytes v m).length = m := by
  induction m generalizing v with
  | zero => rfl
  | succ m ih => simp [leBytes, ih]

theorem leBytes_getElem? {w : Nat} (v : BitVec w) {m j : Nat} (hj : j < m) :
    (leBytes v m)[j]? = some (v.extractLsb' (8 * j) 8) := by
  induction m generalizing v j with
  | zero => omega
  | succ m ih =>
    cases j with
    | zero =>
      have hbyte : v.setWidth 8 = v.extractLsb' 0 8 := BitVec.eq_of_getLsbD_eq fun i _ => by simp
      rw [leBytes, List.getElem?_cons_zero, hbyte]
    | succ j =>
      have hbyte : (v >>> 8).extractLsb' (8 * j) 8 = v.extractLsb' (8 * (j + 1)) 8 :=
        BitVec.eq_of_getLsbD_eq fun i _ => by
          rw [BitVec.getLsbD_extractLsb', BitVec.getLsbD_extractLsb', BitVec.getLsbD_ushiftRight, Nat.mul_succ,
            ← Nat.add_assoc, Nat.add_comm 8]
      rw [leBytes, List.getElem?_cons_succ, ih _ (by omega), hbyte]

/-- Bit `i` of a value assembled from bytes is bit `i % 8` of byte `i / 8`. -/
theorem getLsbD_fromLe (w : Nat) (ds : List Byte) {i : Nat} (hi : i < w) :
    (fromLe w ds).getLsbD i = (ds[i / 8]?.getD 0#8).getLsbD (i % 8) := by
  induction ds generalizing i with
  | nil => simp [fromLe]
  | cons d ds ih =>
    rw [fromLe, BitVec.getLsbD_or, BitVec.getLsbD_shiftLeft, BitVec.getLsbD_setWidth]
    by_cases h8 : i < 8
    · simp [h8, hi, Nat.div_eq_of_lt, Nat.mod_eq_of_lt]
    · obtain ⟨k, rfl⟩ := Nat.exists_eq_add_of_le (Nat.le_of_not_lt h8)
      rw [Nat.add_sub_cancel_left, ih (by omega), Nat.add_div_left _ (by decide), Nat.add_mod_left]
      simp [hi]

theorem fromLe_leBytes {m : Nat} (v : BitVec (8 * m)) : fromLe (8 * m) (leBytes v m) = v := by
  refine BitVec.eq_of_getLsbD_eq fun i hi => ?_
  rw [getLsbD_fromLe _ _ hi, leBytes_getElem? v (by omega : i / 8 < m), Option.getD_some, BitVec.getLsbD_extractLsb',
    Nat.div_add_mod]
  simp [Nat.mod_lt]

theorem leBytes_fromLe (ds : List Byte) : leBytes (fromLe (8 * ds.length) ds) ds.length = ds := by
  refine List.ext_getElem? fun j => ?_
  by_cases hj : j < ds.length
  · rw [leBytes_getElem? _ hj, List.getElem?_eq_getElem hj, Option.some_inj]
    refine BitVec.eq_of_getLsbD_eq fun i hi => ?_
    rw [BitVec.getLsbD_extractLsb', getLsbD_fromLe _ _ (by omega), Nat.mul_add_div (by decide),
      Nat.mul_add_mod, Nat.div_eq_of_lt hi, Nat.mod_eq_of_lt hi]
    simp [hi, hj]
  · rw [List.getElem?_eq_none (by simpa using hj), List.getElem?_eq_none (by simpa using hj)]

theorem msgBytes_leBytes_eq_setWidth {w : Nat} (v : BitVec w) (m : Nat) :
    msgBytes (leBytes v m) = msgBits (v.setWidth (8 * m)) := by
  induction m generalizing v with
  | zero => simp [leBytes, msgBytes, msgBits]
  | succ m ih =>
    rw [leBytes, msgBytes, length_leBytes, ih, ← msgBits_setWidth_add, Nat.mul_succ, Nat.add_comm]

theorem msgBytes_leBytes {m : Nat} (v : BitVec (8 * m)) : msgBytes (leBytes v m) = msgBits v := by
  rw [msgBytes_leBytes_eq_setWidth, BitVec.setWidth_eq]

/-! ### The carry-less product -/

theorem polyInt_xor {w : Nat} (a b : BitVec w) : polyInt (a ^^^ b) = polyInt a + polyInt b := by
  simp only [polyInt, BitVec.getLsbD_xor, ite_xor_eq_add, Finset.sum_add_distrib]

theorem coeff_polyInt {w : Nat} (v : BitVec w) (k : Nat) :
    (polyInt v).coeff k = if v.getLsbD k = true then 1 else 0 := by
  have hterm : ∀ i, (if v.getLsbD i = true then (X ^ i : Gf2Poly) else 0).coeff k =
      if k = i then (if v.getLsbD k = true then 1 else 0) else 0 := by
    intro i
    by_cases hki : k = i
    · subst hki; split <;> simp
    · split <;> simp [coeff_X_pow, hki]
  rw [polyInt, finsetSum_coeff, Finset.sum_congr rfl fun i _ => hterm i, Finset.sum_ite_eq]
  by_cases hk : k < w
  · simp [hk]
  · simp [hk, BitVec.getLsbD_of_ge v k (Nat.le_of_not_lt hk)]

/-- A shift that loses no bit is a product with a power of x. -/
theorem polyInt_setWidth_shiftLeft {w n : Nat} (a : BitVec w) {i : Nat} (hfit : w + i ≤ n) :
    polyInt (a.setWidth n <<< i) = polyInt a * X ^ i := by
  ext k
  rw [coeff_mul_X_pow', coeff_polyInt, coeff_polyInt, BitVec.getLsbD_shiftLeft, BitVec.getLsbD_setWidth]
  by_cases hik : i ≤ k
  · by_cases hkn : k < n
    · simp [hik, hkn, Nat.not_lt.mpr hik, show k - i < n by omega]
    · simp [hik, hkn, BitVec.getLsbD_of_ge a (k - i) (by omega)]
  · simp [hik, Nat.lt_of_not_le hik]

theorem getLsbD_clmulUpTo (a b : DWord) (n : Nat) {m : Nat} (hm : m < 128) :
    (clmulUpTo a b n).getLsbD m =
      (List.range n).foldl (fun acc j => acc ^^ (decide (j ≤ m) && a.getLsbD (m - j) && b.getLsbD j)) false := by
  induction n with
  | zero => simp [clmulUpTo]
  | succ n ih =>
    rw [clmulUpTo_succ, List.range_succ, List.foldl_append, BitVec.getLsbD_xor, ih, List.foldl_cons, List.foldl_nil]
    have hrange : decide (n ≤ m) = !decide (m < n) := by rw [← decide_not, decide_eq_decide, Nat.not_lt]
    cases b.getLsbD n <;> simp [hm, hrange]

/-- Factors of 64 bits give a product of 127 bits. -/
theorem getLsbD_clmulUpTo_top (a b : DWord) {n : Nat} (hn : n ≤ 64) : (clmulUpTo a b n).getLsbD 127 = false := by
  induction n with
  | zero => simp [clmulUpTo]
  | succ n ih =>
    have htop : a.getLsbD (127 - n) = false := BitVec.getLsbD_of_ge a _ (by omega)
    rw [clmulUpTo_succ, BitVec.getLsbD_xor, ih (by omega)]
    cases b.getLsbD n <;> simp [htop]

theorem polyInt_clmulUpTo (a b : DWord) {n : Nat} (hn : n ≤ 64) :
    polyInt (clmulUpTo a b n) = polyInt a * ∑ i ∈ Finset.range n, if b.getLsbD i = true then X ^ i else 0 := by
  induction n with
  | zero => simp [clmulUpTo, polyInt]
  | succ n ih =>
    have hshift : polyInt (a.setWidth 128 <<< n) = polyInt a * X ^ n := polyInt_setWidth_shiftLeft a (by omega)
    rw [clmulUpTo, Finset.sum_range_succ, mul_add, ← ih (by omega)]
    split
    · rw [polyInt_xor, hshift]
    · simp

theorem polyInt_clmul (a b : DWord) : polyInt (clmul a b) = polyInt a * polyInt b :=
  polyInt_clmulUpTo a b (Nat.le_refl 64)

/-- The normal form of 00 R10, whose top bit `x^32` is implicit. -/
theorem polyInt_normalForm :
    polyInt 0x1EDC6F41#32 = 1 + X ^ 6 + X ^ 8 + X ^ 9 + X ^ 10 + X ^ 11 + X ^ 13 + X ^ 14 + X ^ 18 + X ^ 19 + X ^ 20 +
      X ^ 22 + X ^ 23 + X ^ 25 + X ^ 26 + X ^ 27 + X ^ 28 := by
  simp [polyInt, Finset.sum_range_succ]

/-! ### The statements -/

/-- Settles O22: `x · poly32 r` differs from `poly32 (mulx r)` by `genP` or by nothing. -/
theorem mulxMultipliesByXModuloP : Obligations.MulxMultipliesByXModuloP :=
  ⟨fun _ => rfl, fun _ => ⟨rfl, fun _ => rfl⟩,
    fun r => (poly32_eq_modByMonic_iff _ _).mpr (residue_mulx r),
    fun r n => (poly32_eq_modByMonic_iff _ _).mpr (residue_mulxn r n)⟩

/-- Settles O23, by induction on the bytes in the ring of residues. -/
theorem crcBytesIsTheRemainderOfSeedAndMessage : Obligations.CrcBytesIsTheRemainderOfSeedAndMessage :=
  ⟨fun _ _ => rfl, fun _ => rfl, crcBytes_cons,
    fun r d => (poly32_eq_modByMonic_iff _ _).mpr (residue_crcByte r d),
    fun r ds => (poly32_eq_modByMonic_iff _ _).mpr (residue_crcBytes r ds)⟩

/-- Settles O24: byte `j` of a value and bit `i` of an assembled value determine both directions; the message splits
after its first byte. -/
theorem littleEndianBytesKeepTheMessage : Obligations.LittleEndianBytesKeepTheMessage :=
  ⟨fun _ _ v hj => leBytes_getElem? v hj, fun m v => ⟨length_leBytes v m, fromLe_leBytes v⟩, leBytes_fromLe,
    fun _ v => msgBytes_leBytes v⟩

/-- Settles O25, by induction on the bits of the second factor. -/
theorem clmulIsTheProductOverGf2 : Obligations.ClmulIsTheProductOverGf2 :=
  fun a b => ⟨fun _ hm => getLsbD_clmulUpTo a b 64 hm, getLsbD_clmulUpTo_top a b (Nat.le_refl 64), polyInt_clmul a b⟩

/-- Settles O21: both written forms of the generator are expanded into their powers of x. -/
theorem reflectedFormRepresentsTheGenerator : Obligations.ReflectedFormRepresentsTheGenerator := by
  refine ⟨genP_eq, ?_, ?_, ?_⟩
  · rw [genP, polyInt_normalForm]
    ring
  · simp [poly32, Finset.sum_range_succ]
  · simp [poly32]

end Sys2Proof.Machine
end

section
/-! The constant ROM and what a command's result depends on (spec 10 R20 to R24): no step writes the ROM, its content
is the defining formulas, and the result of a command is a rule of the ROM and the command alone. -/

namespace Sys2Proof.Machine

open Polynomial

variable {s t : State} {c : Command} {rest : List Command} {f : Rom → Command → QWord} {i : Instr}

/-! ### The ROM -/

theorem step_next_rom (h : step s = .next t) : t.rom = s.rom := by
  obtain rfl | rfl | rfl | ⟨-, rfl⟩ | ⟨c, rest, i, r, -, -, rfl⟩ := step_next h
  · exact State.advance_rom s
  · rw [State.accept_rom, State.advance_rom]
  · rw [State.deliver_rom, State.advance_rom]
  · rw [State.resetBlock_rom, State.advance_rom]
  · rw [State.answer_rom, State.advance_rom]

theorem step_fault_rom {w : Word} (h : step s = .fault (.illegal w t)) : t.rom = s.rom := by
  obtain ⟨c, rest, x, -, -, -, he⟩ := step_fault h
  obtain ⟨-, rfl⟩ := Fault.illegal.inj he
  rw [State.answer_rom, State.advance_rom]

theorem entry_content_zero (i : Byte) : Rom.content.entry 0 i = crcByte 0#32 i := entry_content 0 i

/-- The recurrence of 10 R22, by table look-ups only. -/
theorem entry_content_succ (k : Fin 3) (i : Byte) :
    Rom.content.entry k.succ i = (Rom.content.entry k.castSucc i >>> 8) ^^^
      Rom.content.entry 0 ((Rom.content.entry k.castSucc i).setWidth 8) := by
  rw [entry_content_zero, entry_content, entry_content, Fin.val_succ, Fin.val_castSucc, tableEntry_succ]

theorem content_k0_eq_mulxn : Rom.content.k0 = mulxn onePoly 159 := xpow_eq_mulxn 159#32

theorem content_k1_eq_mulxn : Rom.content.k1 = mulxn onePoly 95 := xpow_eq_mulxn 95#32

theorem content_k0_value : Rom.content.k0 = 0xF20C0DFE#32 := by decide +kernel

theorem content_k1_value : Rom.content.k1 = 0x493C7D27#32 := by decide +kernel

/-! ### Powers of x -/

theorem poly32_onePoly : poly32 onePoly = 1 := by
  simp [poly32, onePoly, Finset.sum_range_succ]

theorem poly32_mulxn_onePoly (n : Nat) : poly32 (mulxn onePoly n) = X ^ n %ₘ genP := by
  rw [poly32_eq_modByMonic_iff, residue_mulxn, poly32_onePoly, mul_one]

/-! ### Completion -/

/-- `State.complete_cons` with the next state written out. -/
theorem State.complete_eq_next (h : s.inflight = c :: rest) :
    s.complete f = .next { s with inflight := rest, responses := s.responses ++ [.ok (f s.rom c)] } := by
  rw [State.complete_cons h, State.answer, h, List.tail_cons]

/-- The same command in flight twice: each of two completions appends the result. -/
theorem State.complete_twice (h : s.inflight = c :: c :: rest) :
    ∃ t, s.complete f = .next t ∧ t.complete f =
      .next { s with inflight := rest, responses := s.responses ++ [.ok (f s.rom c), .ok (f s.rom c)] } := by
  refine ⟨_, State.complete_eq_next h, ?_⟩
  rw [State.complete_eq_next rfl, List.append_assoc, List.singleton_append]

/-- The `R` a host reads for a legal command is its meaning's rule. -/
theorem answerOf_complete (hd : decode c.cmd = .ok i) (hf : ∀ s, exec i s = s.complete f) (rom : Rom) :
    answerOf rom c = some (f rom c) := by
  rw [answerOf, respond_legal rfl hd, hf, State.complete_cons rfl]
  rfl

theorem reply_complete (hd : decode (encode i) = .ok i) (hf : ∀ s, exec i s = s.complete f) (s : Word) (a b : QWord)
    (n : Word) : reply i s a b n = some (f Rom.content ⟨encode i, s, a, b, n⟩) :=
  answerOf_complete (c := ⟨encode i, s, a, b, n⟩) hd hf Rom.content

theorem reply_xnmodp (s : Word) (a b : QWord) (n : Word) :
    reply .xnmodp s a b n = some (zext128 (mulxn onePoly n.toNat)) := by
  rw [reply_complete (by decide) exec_xnmodp_eq, xpow_eq_mulxn]

/-! ### The statements -/

/-- Settles O15, from all that a step can do and the defining formula of every entry. -/
theorem romIsReadOnlyWithItsContentFromReset : Obligations.RomIsReadOnlyWithItsContentFromReset :=
  ⟨fun _ _ => step_next_rom, fun _ _ _ => step_fault_rom, entry_content_zero, entry_content_succ,
    content_k0_eq_mulxn, content_k1_eq_mulxn⟩

/-- Settles O18: the meaning of a decoded instruction is `complete` of one rule of the ROM and the command. -/
theorem resultDependsOnCommandAndRomAlone : Obligations.ResultDependsOnCommandAndRomAlone := by
  intro rom c i hd
  obtain ⟨f, hf⟩ := exec_eq_complete (decode_wellFormed hd)
  refine ⟨f rom c, fun s rest hrom hin => ?_, fun s rest hrom hin => ?_⟩
  · subst hrom
    rw [hf, State.complete_eq_next hin]
  · subst hrom
    obtain ⟨t, hfirst, hsecond⟩ := State.complete_twice (f := f) hin
    exact ⟨t, (hf s).trans hfirst, (hf t).trans hsecond⟩

/-- Settles O26: the constants are serial powers of x, which XNMODP returns. -/
theorem foldConstantsAreTheirPowers : Obligations.FoldConstantsAreTheirPowers := by
  refine ⟨content_k0_value, content_k1_value, ?_, ?_, ?_, ?_⟩
  · rw [content_k0_eq_mulxn, poly32_mulxn_onePoly]
  · rw [content_k1_eq_mulxn, poly32_mulxn_onePoly]
  · rw [content_k0_eq_mulxn]
    exact reply_xnmodp _ _ _ _
  · rw [content_k1_eq_mulxn]
    exact reply_xnmodp _ _ _ _

end Sys2Proof.Machine
end

section
/-! The stream of responses (spec 20 R49, 70 R243): each event other than a reset moves a response or a command along
the stream, and an answer puts the response of the oldest command where that command stood. -/

namespace Sys2Proof.Machine

variable {s t : State} {c : Command} {rest : List Command} {f : Rom → Command → QWord} {i : Instr}

/-! ### The response of one command -/

theorem responseOf_complete (hd : decode c.cmd = .ok i) (hf : ∀ s, exec i s = s.complete f) (rom : Rom) :
    responseOf rom c = .ok (f rom c) := by
  rw [responseOf, answerOf_complete hd hf]

theorem responseOf_illegal {e : Reject} (hd : decode c.cmd = .error e) (rom : Rom) : responseOf rom c = .illegal := by
  rw [responseOf, answerOf, respond_illegal rfl hd]

/-- All that answering can do when it gives a next state: nothing, or the oldest command gets its own response. -/
theorem respond_next (h : respond s = .next t) :
    t = s ∨ ∃ c rest, s.inflight = c :: rest ∧ t = s.answer (responseOf s.rom c) := by
  cases hs : s.inflight with
  | nil => exact .inl (Host.Outcome.next.inj ((respond_nil hs).symm.trans h)).symm
  | cons c rest =>
    refine .inr ⟨c, rest, rfl, ?_⟩
    cases hd : decode c.cmd with
    | error e => cases (respond_illegal hs hd).symm.trans h
    | ok i =>
      obtain ⟨f, hf⟩ := exec_eq_complete (decode_wellFormed hd)
      rw [respond_legal hs hd, hf, State.complete_cons hs] at h
      rw [responseOf_complete hd hf]
      exact (Host.Outcome.next.inj h).symm

/-! ### The stream after each operation -/

@[simp] theorem stream_advance (s : State) : stream s.advance = stream s := rfl

@[simp] theorem stream_accept (s : State) : stream s.accept = stream s := by
  simp only [stream, State.accept_delivered, State.accept_responses, State.accept_queue, State.accept_rom]

@[simp] theorem stream_deliver (s : State) : stream s.deliver = stream s := by
  simp only [stream, State.deliver_stream, State.deliver_inflight, State.deliver_offered, State.deliver_rom]

/-- The answered command's response was already at this place in the stream. -/
theorem stream_answer (hc : s.inflight = c :: rest) : stream (s.answer (responseOf s.rom c)) = stream s := by
  simp [stream, hc]

theorem stream_of_respond_next (h : respond s = .next t) : stream t = stream s := by
  obtain rfl | ⟨c, rest, hc, rfl⟩ := respond_next h
  · rfl
  · exact stream_answer hc

theorem stream_of_runEvent_next {e : Event} (he : e ≠ .reset) (h : runEvent e s = .next t) : stream t = stream s := by
  cases e with
  | accept => cases h; exact stream_accept s
  | respond => exact stream_of_respond_next h
  | deliver => cases h; exact stream_deliver s
  | wait => cases h; rfl
  | reset => exact absurd rfl he

theorem stream_of_step_next (he : s.nextEvent ≠ .reset) (h : step s = .next t) : stream t = stream s :=
  stream_of_runEvent_next (s := s.advance) he h

theorem stream_of_step_fault {w : Word} (h : step s = .fault (.illegal w t)) : stream t = stream s := by
  obtain ⟨c, rest, e, -, hc, hd, hfault⟩ := step_fault h
  obtain ⟨-, rfl⟩ := Fault.illegal.inj hfault
  rw [← responseOf_illegal hd s.advance.rom]
  exact stream_answer (s := s.advance) hc

/-! ### The statement -/

/-- Settles O11: an answer, ILLEGAL ones too, is the response the stream already held for the oldest command. -/
theorem everyStepKeepsTheResponseStream : Obligations.EveryStepKeepsTheResponseStream :=
  fun _ he => ⟨fun _ => stream_of_step_next he, fun _ _ => stream_of_step_fault⟩

end Sys2Proof.Machine
end

section
/-! The command word (spec 30 R60 to R64): which fields a legal word has, that a decoded word is its instruction's
encoding, and which words the rows of the opcode table match. -/

namespace Sys2Proof.Machine

variable {w : Word} {i : Instr} {r : OpcodeRow}

/-! ### The fields of a word -/

theorem toNat_eq_fields (w : Word) :
    w.toNat = (opcField w).toNat + 32 * (rsv0Field w).toNat + 256 * (rowField w).toNat +
      1024 * (rsv1Field w).toNat := by
  simp only [opcField, rsv0Field, rowField, rsv1Field, BitVec.extractLsb'_toNat, Nat.shiftRight_eq_div_pow]
  omega

theorem opcField_and (v m : Word) : opcField (v &&& m) = opcField v &&& opcField m := BitVec.extractLsb'_and

theorem rsv0Field_and (v m : Word) : rsv0Field (v &&& m) = rsv0Field v &&& rsv0Field m := BitVec.extractLsb'_and

theorem rowField_and (v m : Word) : rowField (v &&& m) = rowField v &&& rowField m := BitVec.extractLsb'_and

theorem rsv1Field_and (v m : Word) : rsv1Field (v &&& m) = rsv1Field v &&& rsv1Field m := BitVec.extractLsb'_and

/-! ### The opcode map -/

/-- The OPC values of 30 R61. -/
def assignedOpcodes : List (BitVec 5) :=
  [0x01#5, 0x02#5, 0x03#5, 0x04#5, 0x08#5, 0x09#5, 0x0A#5, 0x0B#5, 0x10#5, 0x11#5, 0x12#5, 0x18#5, 0x19#5]

theorem opcodeInstr_isSome_row (opc row : Nat) : (opcodeInstr opc row).isSome = (opcodeInstr opc 0).isSome := by
  unfold opcodeInstr
  split <;> rfl

/-- The opcode map assigns exactly the listed values, whatever ROW is. -/
theorem exists_opcodeInstr_iff (opc : BitVec 5) (row : Nat) :
    (∃ i, opcodeInstr opc.toNat row = some i) ↔ opc ∈ assignedOpcodes := by
  have hassigned : ∀ opc : BitVec 5, (opcodeInstr opc.toNat 0).isSome ↔ opc ∈ assignedOpcodes := by decide
  rw [← Option.isSome_iff_exists, opcodeInstr_isSome_row, hassigned]

theorem opcode_of_opcodeInstr {opc row : Nat} (h : opcodeInstr opc row = some i) : i.opcode = opc := by
  unfold opcodeInstr at h
  split at h <;> cases h <;> rfl

/-- Only TBLRD keeps its ROW field, so a zero ROW or TBLRD's opcode loses nothing. -/
theorem rowValue_of_opcodeInstr {opc row : Nat} (h : opcodeInstr opc row = some i) (hrow : row = 0 ∨ opc = 4) :
    i.rowValue = row := by
  unfold opcodeInstr at h
  split at h <;> cases h <;> simp_all [Instr.rowValue]

/-! ### Decoding -/

/-- All that the decoder asks of a word (30 R63, R64). -/
theorem decode_eq_ok_iff : decode w = .ok i ↔
    rsv0Field w = 0 ∧ rsv1Field w = 0 ∧ opcodeInstr (opcField w).toNat (rowField w).toNat = some i ∧
      (rowField w = 0 ∨ opcField w = 0x04) := by
  unfold decode
  split
  · next hrsv =>
    simp only [reduceCtorEq, false_iff]
    tauto
  · next hrsv =>
    obtain ⟨hrsv0, hrsv1⟩ : rsv0Field w = 0 ∧ rsv1Field w = 0 := by tauto
    split
    · next hopc => simp [hopc]
    · next j hopc =>
      split
      · next hrow =>
        simp only [reduceCtorEq, false_iff]
        tauto
      · next hrow =>
        have hrow' : rowField w = 0 ∨ opcField w = 0x04 := by tauto
        simpa [hrsv0, hrsv1, hopc] using fun _ => hrow'

/-- The fields of a legal word (30 R63). -/
theorem exists_decode_ok_iff (w : Word) : (∃ i, decode w = .ok i) ↔
    rsv0Field w = 0 ∧ rsv1Field w = 0 ∧ opcField w ∈ assignedOpcodes ∧ (rowField w = 0 ∨ opcField w = 0x04) := by
  simp only [decode_eq_ok_iff, exists_and_left, exists_and_right, exists_opcodeInstr_iff]

theorem exists_decode_error (h : ¬ ∃ i, decode w = .ok i) : ∃ e, decode w = .error e := by
  cases hd : decode w with
  | error e => exact ⟨e, rfl⟩
  | ok i => exact absurd ⟨i, hd⟩ h

/-- No bit of a legal word is lost: it is its instruction's word. -/
theorem encode_of_decode (h : decode w = .ok i) : encode i = w := by
  obtain ⟨h0, h1, hopc, hrow⟩ := decode_eq_ok_iff.mp h
  have hop : i.opcode = (opcField w).toNat := opcode_of_opcodeInstr hopc
  have hval : i.rowValue = (rowField w).toNat :=
    rowValue_of_opcodeInstr hopc (hrow.imp (congrArg BitVec.toNat) (congrArg BitVec.toNat))
  have hw : i.opcode + i.rowValue * 256 = w.toNat := by
    rw [toNat_eq_fields w, h0, h1, hop, hval]
    simp [Nat.mul_comm]
  rw [encode, hw, BitVec.ofNat_toNat, BitVec.setWidth_eq]

/-! ### The rows of the opcode table -/

/-- Every row fixes OPC, RSV0 and RSV1 to an assigned opcode and zeros; it fixes ROW to zero or is TBLRD's. -/
theorem opcodeRows_fields : ∀ r ∈ opcodeRows,
    (opcField r.mask = .allOnes 5 ∧ opcField r.value ∈ assignedOpcodes) ∧
    (rsv0Field r.mask = .allOnes 3 ∧ rsv0Field r.value = 0) ∧
    (rsv1Field r.mask = .allOnes 22 ∧ rsv1Field r.value = 0) ∧
    (rowField r.mask = .allOnes 2 ∧ rowField r.value = 0 ∨ opcField r.value = 0x04) := by decide

theorem exists_decode_of_matches (hr : r ∈ opcodeRows) (hw : w &&& r.mask = r.value) : ∃ i, decode w = .ok i := by
  obtain ⟨⟨hopcMask, hopc⟩, ⟨hrsv0Mask, hrsv0⟩, ⟨hrsv1Mask, hrsv1⟩, hrow⟩ := opcodeRows_fields r hr
  rw [← hw] at hopc hrsv0 hrsv1 hrow
  rw [opcField_and, hopcMask, BitVec.and_allOnes] at hopc hrow
  rw [rsv0Field_and, hrsv0Mask, BitVec.and_allOnes] at hrsv0
  rw [rsv1Field_and, hrsv1Mask, BitVec.and_allOnes] at hrsv1
  refine (exists_decode_ok_iff w).mpr ⟨hrsv0, hrsv1, hopc, hrow.imp_left fun ⟨hrowMask, hrow⟩ => ?_⟩
  rwa [rowField_and, hrowMask, BitVec.and_allOnes] at hrow

/-- The word of each command matches the row of its opcode. -/
theorem exists_row_of_wellFormed (hi : i.wellFormed = true) : ∃ r ∈ opcodeRows, encode i &&& r.mask = r.value ∧
    (i.opcode = 4 → r.mask = 0xFFFFFCFF#32 ∧ r.value = 4#32) ∧
    (i.opcode ≠ 4 → r.mask = 0xFFFFFFFF#32 ∧ r.value = BitVec.ofNat 32 i.opcode) := by
  cases i with
  | tblrd row =>
    have hrow : row < 4 := by simpa [Instr.wellFormed] using hi
    have hword : ∀ k : Fin 4, encode (.tblrd k) &&& 0xFFFFFCFF#32 = 0x04#32 := by decide
    exact ⟨⟨"TBLRD", 0xFFFFFCFF#32, 0x04#32⟩, by decide, hword ⟨row, hrow⟩, fun _ => ⟨rfl, rfl⟩,
      fun hne => absurd rfl hne⟩
  | _ => decide

/-- Two rows differ in a bit that both masks keep. -/
theorem opcodeRows_disjoint : ∀ r ∈ opcodeRows, ∀ q ∈ opcodeRows, r.value &&& q.mask = q.value &&& r.mask → r = q := by
  decide

theorem row_unique {q : OpcodeRow} (hr : r ∈ opcodeRows) (hq : q ∈ opcodeRows) (hwr : w &&& r.mask = r.value)
    (hwq : w &&& q.mask = q.value) : r = q := by
  refine opcodeRows_disjoint r hr q hq ?_
  rw [← hwr, ← hwq, BitVec.and_assoc, BitVec.and_assoc, BitVec.and_comm r.mask]

/-! ### The statements -/

/-- Settles O2: a legal word is the encoding of its instruction, whose row matches; a row that matches fixes the fields
of a legal word. -/
theorem legalExactlyWhenOneTableRowMatches : Obligations.LegalExactlyWhenOneTableRowMatches := by
  refine ⟨fun w => ⟨fun ⟨i, hd⟩ => ?_, fun ⟨r, hr, hw⟩ => exists_decode_of_matches hr hw⟩,
    fun _ _ hr _ hq => row_unique hr hq, fun _ => exists_row_of_wellFormed⟩
  obtain ⟨r, hr, hw, -⟩ := exists_row_of_wellFormed (decode_wellFormed hd)
  rw [encode_of_decode hd] at hw
  exact ⟨r, hr, hw⟩

/-- The words that are not legal, by their fields (30 R64). -/
theorem not_exists_decode_ok_iff (w : Word) : (¬ ∃ i, decode w = .ok i) ↔
    opcField w ∉ assignedOpcodes ∨ rsv0Field w ≠ 0 ∨ rsv1Field w ≠ 0 ∨ (rowField w ≠ 0 ∧ opcField w ≠ 0x04) := by
  rw [exists_decode_ok_iff]
  tauto

/-- `respond_illegal` with the state after it written out. -/
theorem respond_illegal_eq_fault {s : State} {c : Command} {rest : List Command} (hs : s.inflight = c :: rest)
    (hd : ¬ ∃ i, decode c.cmd = .ok i) : respond s =
      .fault (.illegal c.cmd { s with inflight := rest, responses := s.responses ++ [.illegal] }) := by
  obtain ⟨e, he⟩ := exists_decode_error hd
  rw [respond_illegal hs he, State.answer, hs, List.tail_cons]

/-- Settles O3, from the fields of a legal word. -/
theorem illegalWordsAreUnassignedReservedOrRowWords : Obligations.IllegalWordsAreUnassignedReservedOrRowWords :=
  ⟨not_exists_decode_ok_iff, fun _ _ _ => respond_illegal_eq_fault, (not_exists_decode_ok_iff _).mpr (by decide)⟩

end Sys2Proof.Machine
end

section
/-! Carry-less products and their reduction (spec 40 R106 to R108): a product of values is the product of their
polynomials, its bits in message order are the reflected product, and the seed of a CRC is a shift of its own. -/

namespace Sys2Proof.Machine

open Polynomial

/-! ### The integer convention -/

theorem polyInt_injective {w : Nat} {a b : BitVec w} (h : polyInt a = polyInt b) : a = b := by
  refine BitVec.eq_of_getLsbD_eq fun k _ => ?_
  have hbit : ∀ x y : Bool, (if x = true then (1 : ZMod 2) else 0) = (if y = true then 1 else 0) → x = y := by
    decide
  exact hbit _ _ (by rw [← coeff_polyInt, ← coeff_polyInt, h])

/-- A value is below a power of two exactly when its polynomial has no coefficient from there on. -/
theorem toNat_lt_two_pow_iff_coeff {w : Nat} (v : BitVec w) (p : Nat) :
    v.toNat < 2 ^ p ↔ ∀ k ≥ p, (polyInt v).coeff k = 0 := by
  simp only [coeff_polyInt, BitVec.getLsbD, ite_eq_right_iff, one_ne_zero, imp_false, Bool.not_eq_true]
  exact ⟨fun h k hk => Nat.testBit_lt_two_pow (h.trans_le (Nat.pow_le_pow_right (by decide) hk)),
    Nat.lt_pow_two_of_testBit _⟩

theorem natDegree_polyInt_le {w : Nat} (v : BitVec w) : (polyInt v).natDegree ≤ w - 1 :=
  natDegree_le_iff_coeff_eq_zero.mpr fun k hk =>
    (toNat_lt_two_pow_iff_coeff v w).mp v.isLt k (by omega)

/-- Another width that the value fits does not change its polynomial. -/
theorem polyInt_setWidth_of_lt {w n : Nat} (v : BitVec w) (h : v.toNat < 2 ^ n) :
    polyInt (v.setWidth n) = polyInt v := by
  ext k
  by_cases hk : k < n
  · simp [coeff_polyInt, hk]
  · rw [(toNat_lt_two_pow_iff_coeff v n).mp h k (by omega),
      (toNat_lt_two_pow_iff_coeff _ n).mp (BitVec.isLt _) k (by omega)]

/-! ### The laws of the product -/

theorem clmul_comm (a b : DWord) : clmul a b = clmul b a :=
  polyInt_injective (by rw [polyInt_clmul, polyInt_clmul, mul_comm])

theorem clmul_xor_left (a a' b : DWord) : clmul (a ^^^ a') b = clmul a b ^^^ clmul a' b :=
  polyInt_injective (by simp only [polyInt_clmul, polyInt_xor, add_mul])

theorem polyInt_twoPow {w j : Nat} (hj : j < w) : polyInt (BitVec.twoPow w j) = X ^ j := by
  ext k
  by_cases hk : k = j
  · simp [coeff_polyInt, hk, hj]
  · simp [coeff_polyInt, coeff_X_pow, hk, Ne.symm hk]

theorem clmul_twoPow (a : DWord) {j : Nat} (hj : j < 64) : clmul a (BitVec.twoPow 64 j) = a.setWidth 128 <<< j :=
  polyInt_injective (by rw [polyInt_clmul, polyInt_twoPow hj, polyInt_setWidth_shiftLeft a (by omega)])

theorem clmul_zero (a : DWord) : clmul a 0#64 = 0#128 :=
  polyInt_injective (by rw [polyInt_clmul]; simp [polyInt])

theorem zero_clmul (b : DWord) : clmul 0#64 b = 0#128 := by rw [clmul_comm, clmul_zero]

theorem one_clmul (b : DWord) : clmul 1#64 b = b.setWidth 128 := by
  have h := clmul_twoPow b (j := 0) (by decide)
  rwa [BitVec.shiftLeft_zero, clmul_comm] at h

/-- The bound of 40 R106: each term of a coefficient from `p + q - 1` on has a factor beyond its own bound. -/
theorem clmul_toNat_lt {a b : DWord} {p q : Nat} (hp : 1 ≤ p) (hq : 1 ≤ q) (ha : a.toNat < 2 ^ p)
    (hb : b.toNat < 2 ^ q) : (clmul a b).toNat < 2 ^ (p + q - 1) := by
  rw [toNat_lt_two_pow_iff_coeff] at ha hb ⊢
  intro k hk
  rw [polyInt_clmul, coeff_mul]
  refine Finset.sum_eq_zero fun ij hij => ?_
  have hsum := Finset.HasAntidiagonal.mem_antidiagonal.mp hij
  by_cases hi : p ≤ ij.1
  · rw [ha _ hi, zero_mul]
  · rw [hb _ (by omega), mul_zero]

/-- A product of two CRC values (40 R108). -/
theorem clmul_setWidth_toNat_lt (a k : Word) : (clmul (a.setWidth 64) (k.setWidth 64)).toNat < 2 ^ 63 := by
  have hlt : ∀ r : Word, (r.setWidth 64).toNat < 2 ^ 32 := fun r => by
    rw [BitVec.toNat_setWidth_of_le (by decide)]
    exact r.isLt
  exact clmul_toNat_lt (by decide) (by decide) (hlt a) (hlt k)

/-! ### Message order -/

theorem reflect_sum {ι : Type} (N : Nat) (s : Finset ι) (f : ι → Gf2Poly) :
    (∑ i ∈ s, f i).reflect N = ∑ i ∈ s, (f i).reflect N :=
  map_sum (AddMonoidHom.mk' (reflect N) fun p q => reflect_add p q N) f s

/-- Message order is the integer convention read backwards (00 R12, R17). -/
theorem msgBits_eq_reflect {w : Nat} (v : BitVec w) : msgBits v = (polyInt v).reflect (w - 1) := by
  rw [polyInt, reflect_sum]
  refine Finset.sum_congr rfl fun i hi => ?_
  have hle : i ≤ w - 1 := by have := Finset.mem_range.mp hi; omega
  split
  · rw [reflect_monomial, revAt_le hle]
  · rw [reflect_zero]

theorem poly32_injective {r t : Word} (h : poly32 r = poly32 t) : r = t := by
  rw [poly32_eq_msgBits, poly32_eq_msgBits, msgBits_eq_reflect, msgBits_eq_reflect] at h
  apply polyInt_injective
  rw [← reflect_reflect (N := 31) (p := polyInt r), h, reflect_reflect]

/-- A residue class has one representative of 32 bits. -/
theorem eq_of_residue_eq {r t : Word} (h : residue (poly32 r) = residue (poly32 t)) : r = t :=
  poly32_injective (((poly32_eq_modByMonic_iff r _).mpr h).trans ((poly32_eq_modByMonic_iff t _).mpr rfl).symm)

/-- A product held in `e` bits more than it needs has a message `e` places above the product of the messages. -/
theorem msgBits_of_polyInt_mul {m n w : Nat} (e : Nat) {a : BitVec m} {b : BitVec n} {v : BitVec w}
    (hw : w - 1 = e + (m - 1) + (n - 1)) (h : polyInt v = polyInt a * polyInt b) :
    msgBits v = X ^ e * msgBits a * msgBits b := by
  have hone : (1 : Gf2Poly).natDegree ≤ e := by simp
  have ha := natDegree_polyInt_le a
  have hb := natDegree_polyInt_le b
  have hab : ((1 : Gf2Poly) * polyInt a).natDegree ≤ e + (m - 1) := natDegree_mul_le_of_le hone ha
  rw [msgBits_eq_reflect v, hw, h, ← one_mul (polyInt a), reflect_mul _ _ hab hb, reflect_mul _ _ hone ha,
    reflect_one, msgBits_eq_reflect, msgBits_eq_reflect]

/-- The low 64 bits of the product of two CRC values: `p[63:0]` of 40 R108, which CRC64 reads. -/
def clmulLow (a k : Word) : DWord := (clmul (a.setWidth 64) (k.setWidth 64)).setWidth 64

/-- The low 64 bits are all of the product. -/
theorem polyInt_clmulLow (a k : Word) : polyInt (clmulLow a k) = polyInt a * polyInt k := by
  have hext : ∀ r : Word, polyInt (r.setWidth 64) = polyInt r := fun r =>
    polyInt_setWidth_of_lt r (r.isLt.trans (by decide))
  rw [clmulLow, polyInt_setWidth_of_lt _ ((clmul_setWidth_toNat_lt a k).trans (by decide)), polyInt_clmul, hext, hext]

/-- The reason given in 40 R108: 64 bits are one more than the product needs. -/
theorem msgBits_clmulLow (a k : Word) : msgBits (clmulLow a k) = X * poly32 a * poly32 k := by
  rw [msgBits_of_polyInt_mul 1 (by decide) (polyInt_clmulLow a k), pow_one, poly32_eq_msgBits, poly32_eq_msgBits]

/-! ### Seeds and shifts -/

/-- The seed's contribution to a CRC is a shift of its own (40 R107). -/
theorem crcBytes_eq_shift_xor (r : Word) (ds : List Byte) :
    crcBytes r ds = mulxn r (8 * ds.length) ^^^ crcBytes 0#32 ds := by
  induction ds generalizing r with
  | nil => simp [crcBytes]
  | cons d ds ih =>
    have hbyte : crcByte r d = mulxn r 8 ^^^ crcByte 0#32 d := by simp [crcByte, mulxn_xor]
    rw [crcBytes_cons, crcBytes_cons, ih, ih (crcByte 0#32 d), hbyte, mulxn_xor, ← mulxn_add, List.length_cons,
      Nat.mul_succ, Nat.add_comm 8, BitVec.xor_assoc]

theorem crcBytes_replicate_zero (r : Word) (m : Nat) : crcBytes r (List.replicate m 0#8) = mulxn r (8 * m) := by
  induction m generalizing r with
  | zero => rfl
  | succ m ih =>
    have hbyte : crcByte r 0#8 = mulxn r 8 := by simp [crcByte]
    rw [List.replicate_succ, crcBytes_cons, ih, hbyte, ← mulxn_add, Nat.mul_succ, Nat.add_comm 8]

/-- CRC64 from seed 0 multiplies a product of CRC values by x^33 (40 R108). -/
theorem residue_crcBytes_clmulLow (a k : Word) :
    residue (poly32 (crcBytes 0#32 (leBytes (clmulLow a k) 8))) = residue (X ^ 33 * poly32 a * poly32 k) := by
  have hmsg : msgBytes (leBytes (clmulLow a k) 8) = X * poly32 a * poly32 k :=
    (msgBytes_leBytes (m := 8) _).trans (msgBits_clmulLow a k)
  have hseed : poly32 0#32 = 0 := msgBits_zero 32
  rw [residue_crcBytes, hmsg, hseed]
  exact congrArg residue (by ring)

/-- So a shift by 33 places or more is that reduction of a product with a power of x (40 R108). -/
theorem crcBytes_clmulLow_power (a : Word) (e : Nat) :
    crcBytes 0#32 (leBytes (clmulLow a (mulxn onePoly e)) 8) = mulxn a (33 + e) := by
  refine eq_of_residue_eq ?_
  rw [residue_crcBytes_clmulLow, map_mul, residue_mulxn, residue_mulxn, poly32_onePoly, ← map_mul]
  exact congrArg residue (by ring)

end Sys2Proof.Machine
end

section
/-! The polynomial commands (spec 40 R100 to R108): what XNMODP, CLMUL and MERGE complete with and reply, and the laws
of their replies. -/

namespace Sys2Proof.Machine

/-! ### Completion and replies -/

/-- A value driven on a wider field is read back whole. -/
theorem setWidth_setWidth_self {w n : Nat} (h : w ≤ n) (v : BitVec w) : (v.setWidth n).setWidth w = v := by
  rw [BitVec.setWidth_setWidth_of_le v h, BitVec.setWidth_eq]

/-- Square and multiply gives the serial shift of 40 R102, for every gap. -/
theorem mulMod_xpow (n b : Word) : mulMod (xpow n) b = mulxn b n.toNat := by
  rw [xpow_eq_mulxn, mulMod_mulxn]

theorem reply_merge (s n : Word) (a b : QWord) :
    reply .merge s a b n = some (zext128 (mulxn s n.toNat ^^^ a.setWidth 32)) := by
  rw [reply_complete (by decide) exec_merge_eq, mulMod_xpow]
  rfl

theorem reply_clmul (s n : Word) (a b : QWord) :
    reply .clmul s a b n = some (clmul (a.setWidth 64) (b.setWidth 64)) :=
  reply_complete (by decide) exec_clmul_eq s a b n

/-- The factors are two CRC values, each driven on a 128-bit field (40 R108). -/
theorem reply_clmul_words (a k : Word) : reply .clmul 0#32 (a.setWidth 128) (k.setWidth 128) 0#32 =
    some (clmul (a.setWidth 64) (k.setWidth 64)) := by
  rw [reply_clmul, BitVec.setWidth_setWidth_of_le a (by decide), BitVec.setWidth_setWidth_of_le k (by decide)]

theorem reply_crc64 (s n : Word) (a b : QWord) :
    reply .crc64 s a b n = some (zext128 (crcBytes s (leBytes (a.setWidth 64) 8))) :=
  reply_complete (by decide) exec_crc64_eq s a b n

theorem wordReply_xnmodp (s n : Word) (a : QWord) :
    wordReply .xnmodp s a n = some (mulxn onePoly n.toNat) := by
  rw [wordReply, reply_xnmodp, Option.map_some, zext128_setWidth]

theorem wordReply_merge (s n : Word) (a : QWord) :
    wordReply .merge s a n = some (mulxn s n.toNat ^^^ a.setWidth 32) := by
  rw [wordReply, reply_merge, Option.map_some, zext128_setWidth]

theorem wordReply_crc64 (s n : Word) (a : QWord) :
    wordReply .crc64 s a n = some (crcBytes s (leBytes (a.setWidth 64) 8)) := by
  rw [wordReply, reply_crc64, Option.map_some, zext128_setWidth]

/-- Below 32 no reduction happens. -/
theorem mulxn_onePoly_of_le {n : Nat} (hn : n ≤ 31) : mulxn onePoly n = onePoly >>> n := by
  have hbits : ∀ j < 31, onePoly.getLsbD j = false := by decide
  exact mulxn_ushiftRight onePoly n fun j hj => hbits j (by omega)

/-! ### The statements -/

/-- Settles O37: square and multiply is the serial power, whose polynomial is `x^N` reduced. -/
theorem xnmodpIsTheSerialPowerForEveryExponent : Obligations.XnmodpIsTheSerialPowerForEveryExponent := by
  refine ⟨by decide, fun s c rest hs => ?_, fun n => ⟨_, wordReply_xnmodp _ _ _, poly32_mulxn_onePoly _⟩,
    fun n hn => ?_, by decide +kernel, by decide +kernel, by decide +kernel, by decide +kernel, by decide +kernel⟩
  · rw [exec_xnmodp_eq, State.complete_eq_next hs, xpow_eq_mulxn]
    rfl
  · rw [reply_xnmodp, mulxn_onePoly_of_le hn]
    rfl

/-- Settles O38, by the laws of the product. -/
theorem clmulGivesTheFullProduct : Obligations.ClmulGivesTheFullProduct := by
  refine ⟨by decide, fun s c rest hs => ?_, fun a b => ⟨?_, ?_⟩, fun b => ?_,
    fun s n a b => ⟨_, reply_clmul _ _ _ _, ?_, ?_⟩, by decide +kernel, by decide +kernel, by decide +kernel⟩
  · rw [exec_clmul_eq, State.complete_eq_next hs, Command.loA, Command.loB, BitVec.setWidth_eq_extractLsb' (by decide),
      BitVec.setWidth_eq_extractLsb' (by decide)]
  · rw [reply_clmul, BitVec.setWidth_zero, zero_clmul]
  · rw [reply_clmul, BitVec.setWidth_zero, clmul_zero]
  · rw [reply_clmul, setWidth_setWidth_self (by decide)]
    exact congrArg some (one_clmul b)
  · exact getLsbD_clmulUpTo_top _ _ (Nat.le_refl 64)
  · rw [reply_clmul, clmul_comm]

/-- Settles O39: the shift is `N` serial steps, which multiply by `x^N`; a zero byte is eight of them. -/
theorem mergeShiftsTheFirstCrcByEveryGap : Obligations.MergeShiftsTheFirstCrcByEveryGap := by
  refine ⟨by decide, fun s c rest hs => ?_, fun s n a => ⟨_, wordReply_merge _ _ _, ?_⟩, fun s b => ?_,
    fun s m hm => ?_, fun b n => ?_, by decide +kernel, by decide +kernel⟩
  · rw [exec_merge_eq, State.complete_eq_next hs, mulMod_xpow]
    rfl
  · rw [poly32_eq_modByMonic_iff, poly32_xor, map_add, residue_mulxn, map_add, mul_comm]
  · rw [wordReply_merge, setWidth_setWidth_self (by decide)]
    rfl
  · rw [wordReply_merge, crcBytes_replicate_zero, BitVec.toNat_ofNat, Nat.mod_eq_of_lt hm, BitVec.setWidth_zero,
      BitVec.xor_zero]
  · rw [wordReply_merge, setWidth_setWidth_self (by decide), zero_mulxn, BitVec.zero_xor]

/-- Settles O42: steps from 1 add up. -/
theorem powersAdd : Obligations.PowersAdd := by
  refine ⟨fun a b hab => ⟨_, _, wordReply_xnmodp _ _ _, wordReply_xnmodp _ _ _, ?_⟩,
    fun n hn => ⟨_, wordReply_xnmodp _ _ _, ?_⟩⟩
  · rw [wordReply_merge, BitVec.toNat_add_of_lt hab, mulxn_add, BitVec.setWidth_zero, BitVec.xor_zero]
  · rw [wordReply_xnmodp, BitVec.toNat_add_of_lt hn]
    rfl

/-- Settles O43: the steps are linear and add up. -/
theorem mergeIsLinearAndItsShiftsAdd : Obligations.MergeIsLinearAndItsShiftsAdd := by
  refine ⟨fun s t g a b => ⟨_, _, wordReply_merge _ _ _, wordReply_merge _ _ _, ?_⟩,
    fun s g h b hgh => ⟨_, _, wordReply_merge _ _ _, wordReply_merge _ _ _, ?_⟩⟩
  · rw [wordReply_merge, mulxn_xor, BitVec.setWidth_xor]
    congr 1
    ac_rfl
  · rw [wordReply_merge, BitVec.toNat_add_of_lt hgh, mulxn_add, BitVec.setWidth_zero, BitVec.xor_zero]

/-- Settles O44: carry-less products are products of polynomials. -/
theorem clmulIsCommutativeBilinearAndBounded : Obligations.ClmulIsCommutativeBilinearAndBounded :=
  ⟨clmul_comm, clmul_xor_left, fun a _ => clmul_twoPow a, fun _ _ _ _ => clmul_toNat_lt⟩

/-- Settles O45: the CRC of the first part is the seed of the second, and a seed's contribution is its shift. -/
theorem mergeOfPartsIsTheCrcOfTheWhole : Obligations.MergeOfPartsIsTheCrcOfTheWhole := by
  intro s xs ys hys
  rw [wordReply_merge, BitVec.toNat_ofNat, Nat.mod_eq_of_lt hys, setWidth_setWidth_self (by decide),
    ← crcBytes_eq_shift_xor, crcBytes_append]

/-- Settles O46: the product as a message is x times the product, and CRC64 multiplies a message by `x^32`. -/
theorem crcOfProductReducesWithOffsetThirtyThree : Obligations.CrcOfProductReducesWithOffsetThirtyThree := by
  refine ⟨clmul_setWidth_toNat_lt,
    fun a k => ⟨_, wordReply_crc64 _ _ _, (poly32_eq_modByMonic_iff _ _).mpr (residue_crcBytes_clmulLow a k)⟩,
    fun a b g hg => ⟨_, _, _, wordReply_xnmodp _ _ _, reply_clmul_words a _, wordReply_crc64 _ _ _, ?_⟩⟩
  have hgap : 33 + (g - 33#32).toNat = g.toNat := by
    have hle : 33#32 ≤ g := BitVec.le_def.mpr hg
    rw [BitVec.toNat_sub_of_le hle]
    exact Nat.add_sub_of_le hg
  rw [wordReply_merge, setWidth_setWidth_self (by decide), setWidth_setWidth_self (by decide), ← clmulLow,
    crcBytes_clmulLow_power, hgap]

end Sys2Proof.Machine
end

section
/-! The lookup table and the bit-serial and table-driven steps (spec 41 R120 to R125): an entry is its index stepped
serially, a look-up takes one byte off a run of serial steps, and four look-ups are the CRC of four bytes. -/

namespace Sys2Proof.Machine

/-! ### The table laws -/

/-- The table law of a zero byte: in eight steps the upper bits only shift down (41 R124). -/
theorem mulxn_eight_split (r : Word) : mulxn r 8 = (r >>> 8) ^^^ crcByte 0#32 (r.setWidth 8) := by
  simpa [crcByte] using crcByte_split r 0#8

/-- Row `k` holds its index after the steps of its own byte and of `k` zero bytes. -/
theorem tableEntry_eq_mulxn (k : Nat) (i : Byte) : tableEntry k i = mulxn (i.setWidth 32) (8 * (k + 1)) := by
  induction k with
  | zero => rw [tableEntry, crcByte, BitVec.zero_xor]
  | succ k ih => rw [tableEntry_succ, ← mulxn_eight_split, ih, ← mulxn_add, Nat.mul_succ 8 (k + 1)]

theorem entry_content_eq_mulxn (k : Fin 4) (i : Byte) :
    Rom.content.entry k i = mulxn (i.setWidth 32) (8 * (k + 1)) := by
  rw [entry_content, tableEntry_eq_mulxn]

theorem entry_content_eq_mulxn_row_zero (k : Fin 4) (i : Byte) :
    Rom.content.entry k i = mulxn (Rom.content.entry 0 i) (8 * k) := by
  rw [entry_content_eq_mulxn, entry_content_eq_mulxn, ← mulxn_add, Fin.val_zero, Nat.mul_succ, Nat.add_comm]

theorem entry_content_eq_crcBytes (k : Fin 4) (i : Byte) :
    Rom.content.entry k i = crcBytes 0#32 (i :: List.replicate k 0#8) := by
  rw [crcBytes_cons, crcBytes_replicate_zero, ← entry_content_zero, entry_content_eq_mulxn_row_zero]

@[simp] theorem entry_content_index_zero (k : Fin 4) : Rom.content.entry k 0#8 = 0#32 := by
  rw [entry_content_eq_mulxn, BitVec.setWidth_zero, zero_mulxn]

theorem entry_content_zero_xor (i j : Byte) :
    Rom.content.entry 0 (i ^^^ j) = Rom.content.entry 0 i ^^^ Rom.content.entry 0 j := by
  simp only [entry_content_eq_mulxn, BitVec.setWidth_xor, mulxn_xor]

theorem crcByte_eq_lookup (r : Word) (d : Byte) :
    crcByte r d = (r >>> 8) ^^^ Rom.content.entry 0 ((r ^^^ d.setWidth 32).setWidth 8) := by
  rw [entry_content_zero, ← crcByte_split]

theorem and_low_byte (x : Word) : x &&& 0xFF#32 = (x.setWidth 8).setWidth 32 :=
  BitVec.eq_of_toNat_eq (by simp [Nat.and_two_pow_sub_one_eq_mod x.toNat 8]; omega)

/-- Only the low byte of `r ^ d` is ever reduced in the eight steps of a byte (41 R121). -/
theorem crcByte_eq_low_byte_steps (r : Word) (d : Byte) :
    crcByte r d = (r >>> 8) ^^^ mulxn ((r ^^^ d.setWidth 32) &&& 0xFF#32) 8 := by
  rw [crcByte_split, crcByte, BitVec.zero_xor, and_low_byte]

/-! ### The table-driven steps -/

theorem tableStep8_content (r : Word) (d : Byte) : tableStep8 Rom.content r d = crcByte r d :=
  (crcByte_eq_lookup r d).symm

/-- A look-up takes the lowest byte left off a run of serial steps: row `k` makes the steps of that byte and of the
`k` bytes after it. -/
theorem mulxn_ushiftRight_eq_lookup (x : Word) (n : Nat) (k : Fin 4) :
    mulxn (x >>> n) (8 * (k + 1)) =
      Rom.content.entry k (x.extractLsb' n 8) ^^^ mulxn (x >>> (n + 8)) (8 * k) := by
  rw [Nat.mul_succ, Nat.add_comm, mulxn_add, mulxn_eight_split, mulxn_xor, ← entry_content_zero,
    ← entry_content_eq_mulxn_row_zero, BitVec.setWidth_ushiftRight_eq_extractLsb, BitVec.shiftRight_add,
    BitVec.xor_comm]

/-- Four look-ups, one for each byte and each row, are the 32 serial steps (41 R123). -/
theorem mulxn_word_eq_lookups (x : Word) :
    mulxn x 32 = Rom.content.entry 3 (x.extractLsb' 0 8) ^^^ Rom.content.entry 2 (x.extractLsb' 8 8) ^^^
      Rom.content.entry 1 (x.extractLsb' 16 8) ^^^ Rom.content.entry 0 (x.extractLsb' 24 8) := by
  have byte0 : mulxn x 32 = _ ^^^ mulxn (x >>> 8) 24 := mulxn_ushiftRight_eq_lookup x 0 3
  have byte1 : mulxn (x >>> 8) 24 = _ ^^^ mulxn (x >>> 16) 16 := mulxn_ushiftRight_eq_lookup x 8 2
  have byte2 : mulxn (x >>> 16) 16 = _ ^^^ mulxn (x >>> 24) 8 := mulxn_ushiftRight_eq_lookup x 16 1
  have byte3 : mulxn (x >>> 24) 8 = _ ^^^ x >>> 32 := mulxn_ushiftRight_eq_lookup x 24 0
  rw [byte0, byte1, byte2, byte3, BitVec.ushiftRight_eq_zero (Nat.le_refl 32), BitVec.xor_zero, BitVec.xor_assoc,
    BitVec.xor_assoc]

theorem tableStep32_content_eq_mulxn (r w : Word) : tableStep32 Rom.content r w = mulxn (r ^^^ w) 32 := by
  rw [tableStep32, withValue_eq, mulxn_word_eq_lookups]

/-- Four bytes in stream order enter a CRC as one word XORed into the seed: as messages, both are
`(poly32 r + poly32 w) · x^32`. -/
theorem crcBytes_leBytes_word (r w : Word) : crcBytes r (leBytes w 4) = mulxn (r ^^^ w) 32 := by
  have hmsg : msgBytes (leBytes w 4) = poly32 w := msgBytes_leBytes (m := 4) w
  refine eq_of_residue_eq ?_
  rw [residue_crcBytes, residue_mulxn, hmsg, length_leBytes, poly32_xor]
  exact congrArg residue (by ring)

theorem tableStep32_content (r w : Word) : tableStep32 Rom.content r w = crcBytes r (leBytes w 4) := by
  rw [tableStep32_content_eq_mulxn, crcBytes_leBytes_word]

theorem leBytes_word (w : Word) :
    leBytes w 4 = [w.extractLsb' 0 8, w.extractLsb' 8 8, w.extractLsb' 16 8, w.extractLsb' 24 8] := by
  simp only [leBytes, ← BitVec.shiftRight_add, BitVec.setWidth_ushiftRight_eq_extractLsb,
    BitVec.setWidth_eq_extractLsb' (x := w) (w := 8) (by decide)]

/-! ### Completion and replies -/

variable {i : Instr} {f : Rom → Command → QWord} {g : Command → QWord}

theorem completesWith_of_exec (hf : ∀ s, exec i s = s.complete fun _ c => g c) : CompletesWith i g :=
  fun s c rest hs => by rw [hf, State.complete_eq_next hs]

theorem completesOnContentWith_of_exec (hf : ∀ s, exec i s = s.complete f) (hg : ∀ c, f Rom.content c = g c) :
    CompletesOnContentWith i g :=
  fun s c rest hrom hs => by rw [hf, State.complete_eq_next hs, hrom, hg]

variable (s n : Word) (a b : QWord)

theorem reply_tblrd (k : Fin 4) :
    reply (.tblrd k) s a b n = some (zext128 (Rom.content.entry k (a.setWidth 8))) :=
  reply_complete (Laws.RoundTrip.tblrd k (decide_eq_true k.isLt)) (exec_tblrd_eq · k k.isLt) s a b n

theorem reply_crcb8 : reply .crcb8 s a b n = some (zext128 (crcByte s (a.setWidth 8))) :=
  reply_complete (by decide) exec_crcb8_eq s a b n

theorem reply_crct8 : reply .crct8 s a b n = some (zext128 (crcByte s (a.setWidth 8))) := by
  rw [reply_complete (by decide) exec_crct8_eq, tableStep8_content]
  rfl

theorem reply_crct32 : reply .crct32 s a b n = some (zext128 (crcBytes s (leBytes (a.setWidth 32) 4))) := by
  rw [reply_complete (by decide) exec_crct32_eq, tableStep32_content]
  rfl

theorem wordReply_crcb8 : wordReply .crcb8 s a n = some (crcByte s (a.setWidth 8)) := by
  rw [wordReply, reply_crcb8, Option.map_some, zext128_setWidth]

theorem wordReply_crct8 : wordReply .crct8 s a n = some (crcByte s (a.setWidth 8)) := by
  rw [wordReply, reply_crct8, Option.map_some, zext128_setWidth]

theorem wordReply_crct32 : wordReply .crct32 s a n = some (crcBytes s (leBytes (a.setWidth 32) 4)) := by
  rw [wordReply, reply_crct32, Option.map_some, zext128_setWidth]

end Sys2Proof.Machine
end

section
/-! The table and serial commands (spec 41): TBLRD, CRCB8, CRCT8, CRCT32, and the laws between them. -/

namespace Sys2Proof.Machine

/-- Settles O27: every entry is its index after `8 (k + 1)` linear serial steps. -/
theorem tableEntriesObeyTheTableLaws : Obligations.TableEntriesObeyTheTableLaws :=
  ⟨entry_content_zero, fun k i => ⟨entry_content_eq_crcBytes k i, entry_content_eq_mulxn_row_zero k i⟩,
    entry_content_zero_xor, crcByte_eq_lookup⟩

/-- Settles O28: TBLRD replies the entry, which is the CRC of its byte and `k` zero bytes. -/
theorem tblrdReadsOneTableEntry : Obligations.TblrdReadsOneTableEntry := by
  refine ⟨by decide, fun k => completesOnContentWith_of_exec (exec_tblrd_eq · k k.isLt) fun c => rfl,
    fun k => ?_, fun k i => ?_, by decide +kernel, by decide +kernel⟩
  · rw [reply_tblrd, BitVec.setWidth_zero, entry_content_index_zero]
    rfl
  · rw [reply_tblrd, setWidth_setWidth_self (by decide), entry_content_eq_crcBytes]
    rfl

/-- Settles O30: CRCB8 replies `crc_byte`, whose eight steps reduce the low byte only. -/
theorem crcbEightStepsOneByteBitSerially : Obligations.CrcbEightStepsOneByteBitSerially := by
  refine ⟨by decide, completesWith_of_exec exec_crcb8_eq, by decide +kernel, fun i => ?_, by decide +kernel,
    fun s d => ?_, by decide +kernel⟩
  · rw [reply_crcb8, setWidth_setWidth_self (by decide), entry_content_zero]
    rfl
  · rw [reply_crcb8, setWidth_setWidth_self (by decide), crcByte_eq_low_byte_steps]
    rfl

/-- Settles O31: the look-up is `crc_byte` by the table law, so CRCT8 and CRCB8 reply the same. -/
theorem crctEightLooksUpOneByteAndEqualsCrcbEight : Obligations.CrctEightLooksUpOneByteAndEqualsCrcbEight := by
  refine ⟨by decide, completesOnContentWith_of_exec exec_crct8_eq fun c => rfl,
    completesOnContentWith_of_exec exec_crct8_eq fun c => congrArg zext128 (tableStep8_content c.s c.byteA),
    fun s n a b => ?_, by decide +kernel⟩
  rw [reply_crct8, reply_crcb8]

/-- Settles O32: four look-ups are 32 serial steps of `S ^ A`, and so is the CRC of the four bytes. -/
theorem crctThirtyTwoSlicesFourBytes : Obligations.CrctThirtyTwoSlicesFourBytes := by
  refine ⟨by decide, completesOnContentWith_of_exec exec_crct32_eq fun c => ?_,
    completesOnContentWith_of_exec exec_crct32_eq fun c => ?_, fun s => ?_, by decide +kernel,
    by decide +kernel, by decide +kernel⟩
  · rw [tableStep32, withValue_eq]
    rfl
  · rw [tableStep32_content, leBytes_word, Command.wordA]
    simp only [BitVec.extractLsb'_setWidth_of_le, Nat.reduceAdd, Nat.reduceLeDiff]
    rfl
  · rw [reply_crct32, setWidth_setWidth_self (by decide), crcBytes_leBytes_word, BitVec.xor_self, zero_mulxn]
    rfl

/-- Settles O47: every reply is a `crc_byte` or `crc_bytes`, and `crc_bytes` of four bytes is four `crc_byte`s. -/
theorem tableStepsEqualSerialSteps : Obligations.TableStepsEqualSerialSteps := by
  refine ⟨fun s d => ⟨?_, ?_⟩, fun s w => ⟨?_, ?_⟩⟩
  · rw [wordReply_crct8, setWidth_setWidth_self (by decide)]
  · rw [wordReply_crcb8, setWidth_setWidth_self (by decide)]
  · rw [wordReply_crct32, setWidth_setWidth_self (by decide)]
  · simp only [wordReply_crcb8, wordReply_crct32, Option.bind_some, leBytes_word, crcBytes, withValue_eq,
      setWidth_setWidth_self, Nat.reduceLeDiff]

end Sys2Proof.Machine
end

section
/-! The native byte steps (spec 42 R140 to R146): CRC8, CRC16, CRC32 and CRC64 are one step of 1, 2, 4 and 8 bytes.
The bytes of a value split at any byte, so the widths compose; a seed is an XOR into the first four bytes. -/

namespace Sys2Proof.Machine

/-! ### The bytes of a value -/

/-- `le_bytes` byte by byte: byte `j` is bits `8j+7:8j` (00 R16). -/
theorem leBytes_eq_map {w : Nat} (v : BitVec w) (m : Nat) :
    leBytes v m = (List.range m).map fun j => v.extractLsb' (8 * j) 8 := by
  refine List.ext_getElem? fun j => ?_
  by_cases hj : j < m
  · rw [leBytes_getElem? v hj]
    simp [hj]
  · rw [List.getElem?_eq_none (by simpa using hj), List.getElem?_eq_none (by simpa using hj)]

/-- The bits above the bytes taken do not matter. -/
theorem leBytes_setWidth {w n m : Nat} (h : 8 * m ≤ n) (v : BitVec w) : leBytes (v.setWidth n) m = leBytes v m := by
  rw [leBytes_eq_map, leBytes_eq_map]
  refine List.map_congr_left fun j hj => ?_
  have hjm : j < m := List.mem_range.mp hj
  exact BitVec.extractLsb'_setWidth_of_le (by omega)

/-- The bytes of a part of a value are those from its start on. -/
theorem leBytes_extractLsb' {w len m : Nat} (h : 8 * m ≤ len) (v : BitVec w) (start : Nat) :
    leBytes (v.extractLsb' start len) m = leBytes (v >>> start) m := by
  rw [← BitVec.setWidth_ushiftRight_eq_extractLsb, leBytes_setWidth h]

theorem ushiftRight_byte_succ {w : Nat} (v : BitVec w) (m : Nat) : v >>> (8 * (m + 1)) = v >>> 8 >>> (8 * m) := by
  rw [← BitVec.shiftRight_add, Nat.mul_succ, Nat.add_comm]

theorem leBytes_add {w : Nat} (v : BitVec w) (m n : Nat) :
    leBytes v (m + n) = leBytes v m ++ leBytes (v >>> (8 * m)) n := by
  induction m generalizing v with
  | zero => simp [leBytes]
  | succ m ih => rw [Nat.succ_add, leBytes, ih, leBytes, List.cons_append, ushiftRight_byte_succ]

theorem leBytes_fromLe_of_length {m : Nat} {ds : List Byte} (h : ds.length = m) :
    leBytes (fromLe (8 * m) ds) m = ds := by
  subst h
  exact leBytes_fromLe ds

/-- XORing the bytes of a short value into those of another is XORing the values. -/
theorem xorInto_leBytes {w m n : Nat} (hmn : m ≤ n) (x v : BitVec w) (hx : x >>> (8 * m) = 0#w) :
    xorInto (leBytes x m) (leBytes v n) = leBytes (v ^^^ x) n := by
  induction m generalizing n x v with
  | zero =>
    have hx0 : x = 0#w := by simpa using hx
    rw [hx0, BitVec.xor_zero]
    rfl
  | succ m ih =>
    obtain ⟨n, rfl⟩ := Nat.exists_eq_add_of_le' (Nat.one_le_of_lt hmn)
    rw [ushiftRight_byte_succ] at hx
    rw [leBytes, leBytes, xorInto, ih (Nat.le_of_succ_le_succ hmn) _ _ hx, leBytes, BitVec.setWidth_xor,
      BitVec.ushiftRight_xor_distrib, BitVec.xor_comm (x.setWidth 8)]

/-! ### The seed -/

theorem crcBytes_singleton (r : Word) (d : Byte) : crcBytes r [d] = crcByte r d := by rw [crcBytes_cons, crcBytes]

/-- The low byte of the CRC meets the data byte, the others shift down. -/
theorem crcByte_xor_seed (r t : Word) (d : Byte) :
    crcByte (r ^^^ t) d = (r >>> 8) ^^^ crcByte t (r.setWidth 8 ^^^ d) := by
  have hlow : crcByte t (r.setWidth 8 ^^^ d) = crcByte 0#32 (r.setWidth 8) ^^^ crcByte t d := by
    simp only [crcByte, BitVec.setWidth_xor, mulxn_xor, BitVec.zero_xor]
    ac_rfl
  have hsum : crcByte (r ^^^ t) d = mulxn r 8 ^^^ crcByte t d := by simp only [crcByte, BitVec.xor_assoc, mulxn_xor]
  rw [hsum, hlow, mulxn_eight_split, BitVec.xor_assoc]

/-- A part of the seed that fits `m` bytes is an XOR into the first `m` bytes of the data. -/
theorem crcBytes_xor_seed (m : Nat) (r t : Word) (hr : r >>> (8 * m) = 0#32) (ds : List Byte) (hm : m ≤ ds.length) :
    crcBytes (r ^^^ t) ds = crcBytes t (xorInto (leBytes r m) ds) := by
  induction m generalizing r t ds with
  | zero =>
    have hr0 : r = 0#32 := by simpa using hr
    rw [hr0, BitVec.zero_xor]
    rfl
  | succ m ih =>
    obtain _ | ⟨d, ds⟩ := ds
    · exact absurd hm (Nat.not_succ_le_zero m)
    · rw [ushiftRight_byte_succ] at hr
      rw [crcBytes_cons, crcByte_xor_seed, ih _ _ hr ds (Nat.le_of_succ_le_succ hm), leBytes, xorInto, crcBytes_cons]

/-- The whole seed fits four bytes (42 R146). -/
theorem crcBytes_eq_xorInto (s : Word) (ds : List Byte) (h : 4 ≤ ds.length) :
    crcBytes s ds = crcBytes 0#32 (xorInto (leBytes s 4) ds) := by
  simpa using crcBytes_xor_seed 4 s 0#32 (BitVec.ushiftRight_eq_zero (Nat.le_refl 32)) ds h

/-- On the bytes of a value the seed is an XOR into the value (43 R163). -/
theorem crcBytes_leBytes_eq_xor {w n : Nat} (hw : 32 ≤ w) (hn : 4 ≤ n) (s : Word) (v : BitVec w) :
    crcBytes s (leBytes v n) = crcBytes 0#32 (leBytes (v ^^^ s.setWidth w) n) := by
  have hs : s.setWidth w >>> (8 * 4) = 0#w := BitVec.eq_of_getLsbD_eq fun i _ => by simp
  rw [crcBytes_eq_xorInto s _ (by rwa [length_leBytes]), ← leBytes_setWidth (n := w) hw s, xorInto_leBytes hn _ _ hs]

/-! ### The native step -/

/-- The instruction is the native step over the low `m` bytes of `A` (42 R140 to R143). -/
structure IsNativeStep (i : Instr) (m : Nat) : Prop where
  decodes : decode (encode i) = .ok i
  exec_eq : ∀ s, exec i s = s.complete fun _ c => zext128 (crcBytes c.s (leBytes c.a m))

theorem isNativeStep_crc8 : IsNativeStep .crc8 1 := ⟨by decide, exec_crc8_eq⟩

/-- A meaning stated on a narrower view of `A` that holds all bytes taken. -/
theorem isNativeStep_of_setWidth {i : Instr} {m : Nat} (w : Nat) (hw : 8 * m ≤ w) (hd : decode (encode i) = .ok i)
    (hf : ∀ s, exec i s = s.complete fun _ c => zext128 (crcBytes c.s (leBytes (c.a.setWidth w) m))) :
    IsNativeStep i m :=
  ⟨hd, fun s => by simpa only [leBytes_setWidth hw] using hf s⟩

theorem isNativeStep_crc16 : IsNativeStep .crc16 2 :=
  isNativeStep_of_setWidth 16 (by decide) (by decide) exec_crc16_eq

theorem isNativeStep_crc32 : IsNativeStep .crc32 4 :=
  isNativeStep_of_setWidth 32 (by decide) (by decide) exec_crc32_eq

theorem isNativeStep_crc64 : IsNativeStep .crc64 8 :=
  isNativeStep_of_setWidth 64 (by decide) (by decide) exec_crc64_eq

section
variable {i j : Instr} {m : Nat} (s n : Word) (a b : QWord)

theorem IsNativeStep.completesWith (h : IsNativeStep i m) : CompletesWith i fun c =>
    (crcBytes c.s ((List.range m).map fun k => c.a.extractLsb' (8 * k) 8)).setWidth 128 :=
  completesWith_of_exec fun s => by simpa only [leBytes_eq_map, zext128] using h.exec_eq s

theorem IsNativeStep.reply_eq (h : IsNativeStep i m) :
    reply i s a b n = some (zext128 (crcBytes s (leBytes a m))) :=
  reply_complete h.decodes h.exec_eq s a b n

theorem IsNativeStep.wordReply_eq (h : IsNativeStep i m) : wordReply i s a n = some (crcBytes s (leBytes a m)) := by
  rw [wordReply, h.reply_eq, Option.map_some, zext128_setWidth]

/-- A step of twice the bytes is two steps, the low part first (42 R144). -/
theorem IsNativeStep.wordReply_double (hi : IsNativeStep i m) (hj : IsNativeStep j (m + m)) (hm : 8 * m ≤ 128) :
    wordReply j s a n = (wordReply i s ((a.extractLsb' 0 (8 * m)).setWidth 128) n).bind fun r =>
      wordReply i r ((a.extractLsb' (8 * m) (8 * m)).setWidth 128) n := by
  rw [hj.wordReply_eq, hi.wordReply_eq, Option.bind_some, hi.wordReply_eq, leBytes_setWidth hm, leBytes_setWidth hm,
    leBytes_extractLsb' (Nat.le_refl _), leBytes_extractLsb' (Nat.le_refl _), BitVec.ushiftRight_zero, leBytes_add,
    crcBytes_append]

/-- Where the step takes four bytes or more, the seed may stand in `A` instead (42 R146). -/
theorem IsNativeStep.wordReply_seed (h : IsNativeStep i m) (hm : 4 ≤ m) :
    wordReply i s a n = wordReply i 0#32 (a ^^^ s.setWidth 128) n := by
  rw [h.wordReply_eq, h.wordReply_eq, crcBytes_leBytes_eq_xor (by decide) hm]

end

/-! ### The other engines' steps -/

section
variable (s n : Word) (a b : QWord)

theorem reply_crc8_eq_crcb8 : reply .crc8 s a b n = reply .crcb8 s a b n := by
  rw [isNativeStep_crc8.reply_eq, reply_crcb8, leBytes, leBytes, crcBytes_singleton]

theorem reply_crc8_eq_crct8 : reply .crc8 s a b n = reply .crct8 s a b n := by
  rw [reply_crc8_eq_crcb8, reply_crcb8, reply_crct8]

theorem reply_crc32_eq_crct32 : reply .crc32 s a b n = reply .crct32 s a b n := by
  rw [isNativeStep_crc32.reply_eq, reply_crct32, leBytes_setWidth (by decide)]

end

end Sys2Proof.Machine
end

section
/-! The native commands (spec 42): CRC8, CRC16, CRC32, CRC64, and the laws between them and the other engines. -/

namespace Sys2Proof.Machine

/-- Settles O33: CRC8 steps `A`'s low byte, as CRCB8 and CRCT8 do. -/
theorem crcEightStepsOneByte : Obligations.CrcEightStepsOneByte := by
  refine ⟨by decide, fun s c rest hs => ?_, by decide +kernel, by decide +kernel,
    fun s n a b => ⟨reply_crc8_eq_crcb8 s n a b, reply_crc8_eq_crct8 s n a b⟩, by decide +kernel⟩
  rw [isNativeStep_crc8.completesWith s c rest hs]
  simp [crcBytes_singleton]

/-- Settles O34: CRC16 steps `A`'s two low bytes; of `1` they are a byte and a zero byte, as in row 1 of the table. -/
theorem crcSixteenStepsTwoBytes : Obligations.CrcSixteenStepsTwoBytes := by
  refine ⟨by decide, isNativeStep_crc16.completesWith, ?_, by decide +kernel, by decide +kernel, by decide +kernel⟩
  rw [isNativeStep_crc16.reply_eq, entry_content_eq_crcBytes]
  rfl

/-- Settles O35: CRC32 steps `A`'s four low bytes, as CRCT32 does: 32 serial steps of `S ^ A`. -/
theorem crcThirtyTwoStepsFourBytes : Obligations.CrcThirtyTwoStepsFourBytes := by
  refine ⟨by decide, isNativeStep_crc32.completesWith, fun s => ?_, by decide +kernel, by decide +kernel,
    reply_crc32_eq_crct32, by decide +kernel⟩
  rw [isNativeStep_crc32.reply_eq, leBytes_setWidth (by decide), crcBytes_leBytes_word, BitVec.xor_self, zero_mulxn]
  rfl

/-- Settles O36: CRC64 steps `A`'s eight low bytes. -/
theorem crcSixtyFourStepsEightBytes : Obligations.CrcSixtyFourStepsEightBytes := by
  refine ⟨by decide, isNativeStep_crc64.completesWith, by decide +kernel, ?_, by decide +kernel, by decide +kernel,
    by decide +kernel, by decide +kernel⟩
  rw [content_k1_value]
  decide +kernel

/-- Settles O48: a value's bytes are its low part's, then its high part's. -/
theorem nativeWidthsCompose : Obligations.NativeWidthsCompose := by
  refine fun s a => ⟨?_, ?_, isNativeStep_crc8.wordReply_double s 0#32 a isNativeStep_crc16 (by decide),
    isNativeStep_crc16.wordReply_double s 0#32 a isNativeStep_crc32 (by decide), ?_,
    isNativeStep_crc32.wordReply_double s 0#32 a isNativeStep_crc64 (by decide)⟩
  · rw [wordReply, reply_crc8_eq_crcb8, wordReply]
  · rw [wordReply, reply_crc8_eq_crct8, wordReply]
  · rw [wordReply, reply_crc32_eq_crct32, wordReply]

/-- Settles O50: the seed meets the first four bytes; the first block is the bytes of its 128-bit value. -/
theorem seedIsAnXorIntoTheFirstBytes : Obligations.SeedIsAnXorIntoTheFirstBytes := by
  refine ⟨fun s a => ⟨isNativeStep_crc32.wordReply_seed s 0#32 a (by decide),
    isNativeStep_crc64.wordReply_seed s 0#32 a (by decide)⟩, crcBytes_eq_xorInto, fun s ds hds => ?_⟩
  have hblock : leBytes (fromLe 128 (ds.take 16)) 16 = ds.take 16 :=
    leBytes_fromLe_of_length (m := 16) (List.length_take_of_le hds)
  rw [crcBytes_append, ← crcBytes_leBytes_eq_xor (by decide) (by decide), hblock, ← crcBytes_append,
    List.take_append_drop]

end Sys2Proof.Machine
end

section
/-! Folding (spec 43 R160 to R166): one lane product as a message, the fold step as a move of the accumulator's message
past the next block, and a chain of folds. -/

namespace Sys2Proof.Machine

open Polynomial

/-! ### The message of a 128-bit value -/

/-- The low half comes first in the stream (43 R162). -/
theorem msgBits_halves (v : QWord) :
    msgBits v = msgBits (v.extractLsb' 0 64) * X ^ 64 + msgBits (v.extractLsb' 64 64) := by
  have hsplit := msgBits_setWidth_add v 64 64
  rwa [BitVec.setWidth_eq, BitVec.setWidth_eq_extractLsb' (by decide),
    BitVec.setWidth_ushiftRight_eq_extractLsb] at hsplit

/-- Sixteen bytes move the seed up by 128 places and the message by 32. -/
theorem residue_crcBytes_leBytes_qword (r : Word) (v : QWord) :
    residue (poly32 (crcBytes r (leBytes v 16))) = residue (poly32 r * X ^ 128 + msgBits v * X ^ 32) := by
  have hmsg : msgBytes (leBytes v 16) = msgBits v := msgBytes_leBytes (m := 16) v
  rw [residue_crcBytes, hmsg, length_leBytes]

@[simp] theorem poly32_zero : poly32 0#32 = 0 := msgBits_zero 32

theorem poly32_crcBytes_leBytes_qword (v : QWord) :
    poly32 (crcBytes 0#32 (leBytes v 16)) = (msgBits v * X ^ 32) %ₘ genP := by
  rw [poly32_eq_modByMonic_iff, residue_crcBytes_leBytes_qword, poly32_zero, zero_mul, zero_add]

/-- Equal residue classes, equal remainders. -/
theorem modByMonic_genP_eq_of_residue_eq {p q : Gf2Poly} (h : residue p = residue q) : p %ₘ genP = q %ₘ genP :=
  modByMonic_eq_of_dvd_sub genP_monic (AdjoinRoot.mk_eq_mk.mp h)

/-! ### One lane product -/

theorem polyInt_clmul_word (h : DWord) (k : Word) : polyInt (clmul h (k.setWidth 64)) = polyInt h * polyInt k := by
  rw [polyInt_clmul, polyInt_setWidth_of_lt k (k.isLt.trans (by decide))]

/-- 128 bits are 33 more than a product of 64 and 32 bits needs (43 R164). -/
theorem msgBits_clmul_word (h : DWord) (k : Word) :
    msgBits (clmul h (k.setWidth 64)) = X ^ 33 * msgBits h * poly32 k :=
  msgBits_of_polyInt_mul 33 (by decide) (polyInt_clmul_word h k)

/-- So a lane product with a power of x is a shift by 33 places more. -/
theorem residue_msgBits_clmul_power (h : DWord) (e : Nat) :
    residue (msgBits (clmul h ((mulxn onePoly e).setWidth 64))) = residue (msgBits h * X ^ (33 + e)) := by
  rw [msgBits_clmul_word, map_mul, residue_mulxn, poly32_onePoly, ← map_mul]
  exact congrArg residue (by ring)

/-- A lane product does not reach bit 95 (43 R160). -/
theorem extractLsb'_clmul_word_top (h : DWord) (k : Word) : (clmul h (k.setWidth 64)).extractLsb' 95 33 = 0#33 := by
  have hk : (k.setWidth 64).toNat < 2 ^ 32 := by
    rw [BitVec.toNat_setWidth_of_le (by decide)]
    exact k.isLt
  have hlt : (clmul h (k.setWidth 64)).toNat < 2 ^ 95 := clmul_toNat_lt (by decide) (by decide) h.isLt hk
  refine BitVec.eq_of_toNat_eq ?_
  rw [BitVec.extractLsb'_toNat, Nat.shiftRight_eq_div_pow, Nat.div_eq_of_lt hlt]
  rfl

/-! ### The fold step -/

/-- `FOLD(acc, blk)` of 43 R165: the fold step of an accumulator's two lanes, with the ROM's content. -/
def foldOnto (acc blk : QWord) : QWord :=
  foldStep Rom.content (acc.extractLsb' 0 64) (acc.extractLsb' 64 64) blk

theorem foldStep_content (lo hi : DWord) (blk : QWord) :
    foldStep Rom.content lo hi blk = clmul lo 0xF20C0DFE#64 ^^^ clmul hi 0x493C7D27#64 ^^^ blk := by
  rw [foldStep, content_k0_value, content_k1_value]
  rfl

/-- Bits 127:95 of a fold are the block's. -/
theorem foldStep_top (rom : Rom) (lo hi : DWord) (blk : QWord) :
    (foldStep rom lo hi blk).extractLsb' 95 33 = blk.extractLsb' 95 33 := by
  rw [foldStep, BitVec.extractLsb'_xor, BitVec.extractLsb'_xor, extractLsb'_clmul_word_top,
    extractLsb'_clmul_word_top, BitVec.xor_self, BitVec.zero_xor]

@[simp] theorem foldOnto_zero (blk : QWord) : foldOnto 0#128 blk = blk := by
  have hlanes : ∀ start, (0#128).extractLsb' start 64 = 0#64 := fun start => by simp
  rw [foldOnto, foldStep, hlanes, hlanes, zero_clmul, zero_clmul, BitVec.xor_self, BitVec.zero_xor]

/-- The two constants are the shifts of the two lanes past the block, each less the 33 places of a lane product
(43 R165): `192 = 33 + 159` and `128 = 33 + 95`. -/
theorem residue_msgBits_foldOnto (acc blk : QWord) :
    residue (msgBits (foldOnto acc blk)) = residue (msgBits acc * X ^ 128 + msgBits blk) := by
  rw [foldOnto, foldStep, msgBits_xor, msgBits_xor, map_add, map_add, content_k0_eq_mulxn, content_k1_eq_mulxn,
    residue_msgBits_clmul_power, residue_msgBits_clmul_power, msgBits_halves acc, ← map_add, ← map_add]
  exact congrArg residue (by ring)

/-- A fold keeps the CRC of the accumulator and the block, whatever data follows (43 R165). -/
theorem crcBytes_foldOnto (acc blk : QWord) (ds : List Byte) :
    crcBytes 0#32 (leBytes (foldOnto acc blk) 16 ++ ds) =
      crcBytes 0#32 (leBytes acc 16 ++ leBytes blk 16 ++ ds) := by
  have hblock : crcBytes 0#32 (leBytes (foldOnto acc blk) 16) = crcBytes 0#32 (leBytes acc 16 ++ leBytes blk 16) := by
    refine eq_of_residue_eq ?_
    rw [crcBytes_append]
    simp only [residue_crcBytes_leBytes_qword, map_add, map_mul, map_pow, residue_msgBits_foldOnto, poly32_zero,
      map_zero]
    ring
  rw [crcBytes_append, crcBytes_append _ (_ ++ _), hblock]

/-! ### What FOLD and FOLDRED reply -/

theorem reply_fold (s n : Word) (a b : QWord) : reply .fold s a b n = some (foldOnto a b) := by
  rw [reply_complete (by decide) exec_fold_eq, Command.loA, BitVec.setWidth_eq_extractLsb' (by decide)]
  rfl

/-- The two chained CRC64 steps take the sixteen bytes of `A` in stream order (43 R161). -/
theorem crcBytes_leBytes_qword (r : Word) (v : QWord) :
    crcBytes r (leBytes v 16) = crcBytes (crcBytes r (leBytes v 8)) (leBytes (v >>> 64) 8) := by
  rw [← crcBytes_append, ← leBytes_add v 8 8]

theorem exec_foldred_eq_crcBytes (st : State) :
    exec .foldred st = st.complete fun _ c => zext128 (crcBytes 0#32 (leBytes c.a 16)) := by
  simp only [exec_foldred_eq, Command.loA, Command.hiA, crcBytes_leBytes_qword, leBytes_setWidth, leBytes_extractLsb',
    Nat.reduceMul, Nat.le_refl]

theorem wordReply_foldred (s n : Word) (a : QWord) :
    wordReply .foldred s a n = some (crcBytes 0#32 (leBytes a 16)) := by
  rw [wordReply, reply_complete (by decide) exec_foldred_eq_crcBytes, Option.map_some, zext128_setWidth]

/-! ### A chain of folds -/

/-- By induction on the blocks: each FOLD replies, and the accumulator stands for all that was folded into it. -/
theorem exists_foldlM_fold (blocks : List (List Byte)) (hlen : ∀ b ∈ blocks, b.length = 16) (acc : QWord) :
    ∃ acc', blocks.foldlM (fun acc b => reply .fold 0#32 acc (fromLe 128 b) 0#32) acc = some acc' ∧
      crcBytes 0#32 (leBytes acc' 16) = crcBytes 0#32 (leBytes acc 16 ++ blocks.flatten) := by
  induction blocks generalizing acc with
  | nil => exact ⟨acc, rfl, by rw [List.flatten_nil, List.append_nil]⟩
  | cons b blocks ih =>
    obtain ⟨hb, hblocks⟩ := List.forall_mem_cons.mp hlen
    obtain ⟨acc', hfold, hcrc⟩ := ih hblocks (foldOnto acc (fromLe 128 b))
    have hbytes : leBytes (fromLe 128 b) 16 = b := leBytes_fromLe_of_length (m := 16) hb
    refine ⟨acc', ?_, ?_⟩
    · rw [List.foldlM_cons, reply_fold]
      exact hfold
    · rw [hcrc, crcBytes_foldOnto, hbytes, List.flatten_cons, List.append_assoc]

end Sys2Proof.Machine
end

section
/-! The folder commands (spec 43): FOLD, FOLDRED, the fold invariant and fold correctness. -/

namespace Sys2Proof.Machine

/-- Settles O40: the lanes are multiplied by the ROM's constants, and no product reaches the bits from 95 on. -/
theorem foldMultipliesTheLanesAndXorsTheBlock : Obligations.FoldMultipliesTheLanesAndXorsTheBlock := by
  refine ⟨by decide, completesOnContentWith_of_exec exec_fold_eq fun c => ?_, fun b => ?_, by decide +kernel,
    by decide +kernel, fun s n a b => ⟨_, reply_fold s n a b, foldStep_top _ _ _ b⟩, by decide +kernel,
    by decide +kernel⟩
  · rw [foldStep_content, Command.loA, BitVec.setWidth_eq_extractLsb' (by decide)]
    rfl
  · rw [reply_fold, foldOnto_zero]

/-- Settles O41: the low half's bytes are the first eight and the high half's the last. -/
theorem foldredReducesTheAccumulator : Obligations.FoldredReducesTheAccumulator := by
  refine ⟨by decide, completesWith_of_exec exec_foldred_eq_crcBytes, fun a => ?_, by decide +kernel,
    by decide +kernel, by decide +kernel, by decide +kernel, by decide +kernel, by decide +kernel⟩
  rw [wordReply_foldred, isNativeStep_crc64.wordReply_eq, Option.bind_some, isNativeStep_crc64.wordReply_eq,
    crcBytes_leBytes_qword]

/-- Settles O51: reflection leaves 33 places above a lane product. -/
theorem laneProductMessageIsExact : Obligations.LaneProductMessageIsExact :=
  ⟨msgBits_halves, poly32_crcBytes_leBytes_qword, msgBits_clmul_word⟩

/-- Settles O52: the constants move the accumulator's message by the 128 places of the block. -/
theorem foldKeepsTheMessageModuloP : Obligations.FoldKeepsTheMessageModuloP :=
  fun acc blk => ⟨foldOnto acc blk, reply_fold _ _ _ _, crcBytes_foldOnto acc blk,
    modByMonic_genP_eq_of_residue_eq (residue_msgBits_foldOnto acc blk)⟩

/-- Settles O53: the seed enters the first block by an XOR, each fold keeps the CRC, and FOLDRED is the CRC of the
accumulator's bytes. -/
theorem foldChainGivesTheCrc : Obligations.FoldChainGivesTheCrc := by
  intro s d0 blocks tail hd0 hblocks _
  have hfirst : leBytes (fromLe 128 d0) 16 = d0 := leBytes_fromLe_of_length (m := 16) hd0
  obtain ⟨acc, hfold, hcrc⟩ := exists_foldlM_fold blocks hblocks (fromLe 128 d0 ^^^ s.setWidth 128)
  refine ⟨acc, _, hfold, wordReply_foldred _ _ _, ?_⟩
  calc crcBytes s (d0 ++ blocks.flatten ++ tail)
      = crcBytes (crcBytes (crcBytes s (leBytes (fromLe 128 d0) 16)) blocks.flatten) tail := by
        rw [crcBytes_append, crcBytes_append, hfirst]
    _ = crcBytes (crcBytes 0#32 (leBytes acc 16)) tail := by
        rw [crcBytes_leBytes_eq_xor (by decide) (by decide), hcrc, crcBytes_append 0#32]

end Sys2Proof.Machine
end

section
/-! What the host's procedures return (spec 44 R184 to R189): a CRC step takes the bytes of its operand into the CRC,
every part of a procedure keeps the CRC of the bytes still to come, and so every engine returns `crc_bytes`. -/

namespace Sys2Proof.Machine

variable {i : Instr} {m : Nat}

/-! ### One command -/

theorem issue_of_reply {s n : Word} {a b r : QWord} (h : reply i s a b n = some r) :
    issue Rom.content i s a b n = .ok r := by
  rw [reply] at h
  rw [issue, h]

theorem crcStep_of_wordReply {c r : Word} {a : QWord} (h : wordReply i c a 0#32 = some r) :
    crcStep Rom.content i c a = .ok r := by
  obtain ⟨q, hq, rfl⟩ := Option.map_eq_some_iff.mp h
  rw [crcStep, issue_of_reply hq]
  rfl

theorem fromLe_setWidth {w n : Nat} (h : n ≤ w) (ds : List Byte) : (fromLe w ds).setWidth n = fromLe n ds :=
  BitVec.eq_of_getLsbD_eq fun k hk => by
    rw [BitVec.getLsbD_setWidth, getLsbD_fromLe w ds (by omega), getLsbD_fromLe n ds hk]
    simp [hk]

/-- Bytes driven on a wider field are read back whole. -/
theorem leBytes_fromLe_of_le {w : Nat} {ds : List Byte} (hm : ds.length = m) (hw : 8 * m ≤ w) :
    leBytes (fromLe w ds) m = ds := by
  rw [← leBytes_setWidth (n := 8 * m) (Nat.le_refl _), fromLe_setWidth hw, leBytes_fromLe_of_length hm]

/-- The command is a CRC step over `m` bytes in stream order, whichever engine runs it. -/
def StepsBytes (i : Instr) (m : Nat) : Prop :=
  ∀ (c : Word) (ds : List Byte), ds.length = m → wordReply i c (fromLe 128 ds) 0#32 = some (crcBytes c ds)

theorem StepsBytes.crcStep_eq (h : StepsBytes i m) (c : Word) {ds : List Byte} (hds : ds.length = m) :
    crcStep Rom.content i c (fromLe 128 ds) = .ok (crcBytes c ds) :=
  crcStep_of_wordReply (h c ds hds)

theorem IsNativeStep.stepsBytes (h : IsNativeStep i m) (hm : 8 * m ≤ 128) : StepsBytes i m := fun c ds hds => by
  rw [h.wordReply_eq, leBytes_fromLe_of_le hds hm]

theorem stepsBytes_crc8 : StepsBytes .crc8 1 := isNativeStep_crc8.stepsBytes (by decide)

theorem stepsBytes_crc16 : StepsBytes .crc16 2 := isNativeStep_crc16.stepsBytes (by decide)

theorem stepsBytes_crc32 : StepsBytes .crc32 4 := isNativeStep_crc32.stepsBytes (by decide)

theorem stepsBytes_crc64 : StepsBytes .crc64 8 := isNativeStep_crc64.stepsBytes (by decide)

theorem StepsBytes.of_reply_eq {j : Instr} (hj : StepsBytes j m)
    (h : ∀ c n a b, reply j c a b n = reply i c a b n) : StepsBytes i m := fun c ds hds => by
  rw [← hj c ds hds, wordReply, wordReply, h]

theorem stepsBytes_crcb8 : StepsBytes .crcb8 1 := stepsBytes_crc8.of_reply_eq reply_crc8_eq_crcb8

theorem stepsBytes_crct8 : StepsBytes .crct8 1 := stepsBytes_crc8.of_reply_eq reply_crc8_eq_crct8

theorem stepsBytes_crct32 : StepsBytes .crct32 4 := stepsBytes_crc32.of_reply_eq reply_crc32_eq_crct32

/-- One byte is driven on the field as it is. -/
theorem StepsBytes.crcStep_byte (h : StepsBytes i 1) (c : Word) (d : Byte) :
    crcStep Rom.content i c (d.setWidth 128) = .ok (crcByte c d) := by
  have hd : d.setWidth 128 = fromLe 128 [d] := by simp [fromLe]
  rw [hd, h.crcStep_eq c rfl, crcBytes_singleton]

/-! ### Parts of a procedure -/

theorem crcBytes_take_drop (c : Word) (ds : List Byte) (k : Nat) :
    crcBytes (crcBytes c (ds.take k)) (ds.drop k) = crcBytes c ds := by
  rw [← crcBytes_append, List.take_append_drop]

/-- Every run of the engine returns the raw CRC (44 R183). -/
def ReturnsCrc (engine : Word → List Byte → HostM Word) : Prop :=
  ∀ (r : Word) (data : List Byte), engine r data = .ok (crcBytes r data)

/-- A part of a procedure ends with a CRC and bytes left, from which the CRC is `r` once they are taken too. -/
def LeavesCrc (run : HostM (Word × List Byte)) (r : Word) : Prop :=
  ∃ c ds, run = .ok (c, ds) ∧ crcBytes c ds = r

/-- What takes all bytes left completes the CRC. -/
theorem LeavesCrc.bind {run : HostM (Word × List Byte)} {r : Word} (h : LeavesCrc run r)
    {rest : Word × List Byte → HostM Word} (hrest : ∀ c ds, rest (c, ds) = .ok (crcBytes c ds)) :
    run >>= rest = .ok r := by
  obtain ⟨c, ds, rfl, rfl⟩ := h
  exact hrest c ds

theorem StepsBytes.returnsCrc_bytewise (h : StepsBytes i 1) : ReturnsCrc (bytewise Rom.content i) := by
  intro r data
  induction data generalizing r with
  | nil => rfl
  | cons d ds ih =>
    rw [bytewise, h.crcStep_byte, crcBytes_cons]
    exact ih _

/-- Whole chunks are taken, and less than a chunk is left. -/
theorem StepsBytes.exists_chunks (h : StepsBytes i m) (hm : 0 < m) (fuel : Nat) (c : Word) (ds : List Byte)
    (hfuel : ds.length ≤ fuel) : ∃ c' ds', chunks Rom.content i m fuel c ds = .ok (c', ds') ∧
      crcBytes c' ds' = crcBytes c ds ∧ ds'.length = ds.length % m := by
  induction fuel generalizing c ds with
  | zero =>
    have hlen : ds.length = 0 := Nat.le_zero.mp hfuel
    exact ⟨c, ds, rfl, rfl, by rw [hlen, Nat.zero_mod]⟩
  | succ fuel ih =>
    by_cases hds : m ≤ ds.length
    · obtain ⟨c', ds', hrun, hcrc, hlen⟩ :=
        ih (crcBytes c (ds.take m)) (ds.drop m) (by rw [List.length_drop]; omega)
      refine ⟨c', ds', ?_, hcrc.trans (crcBytes_take_drop c ds m), ?_⟩
      · rw [chunks, if_pos hds, h.crcStep_eq c (List.length_take_of_le hds)]
        exact hrun
      · rw [hlen, List.length_drop, ← Nat.mod_eq_sub_mod hds]
    · exact ⟨c, ds, by rw [chunks, if_neg hds], rfl, (Nat.mod_eq_of_lt (Nat.lt_of_not_le hds)).symm⟩

theorem StepsBytes.leavesCrc_chunks (h : StepsBytes i m) (hm : 0 < m) (c : Word) (ds : List Byte) :
    LeavesCrc (chunks Rom.content i m ds.length c ds) (crcBytes c ds) := by
  obtain ⟨c', ds', hrun, hcrc, -⟩ := h.exists_chunks hm _ c ds (Nat.le_refl _)
  exact ⟨c', ds', hrun, hcrc⟩

/-- A step is taken or not; where it is called for, less than its bytes are left of less than twice as many. -/
theorem StepsBytes.exists_stepIf (h : StepsBytes i m) (cond : Bool) (k : Cursor) :
    ∃ k', stepIf Rom.content i m cond k = .ok k' ∧ crcBytes k'.crc k'.data = crcBytes k.crc k.data ∧
      (cond = true → k.data.length < m + m → k'.data.length < m) := by
  by_cases htake : (cond && decide (m ≤ k.data.length)) = true
  · obtain ⟨-, hlen⟩ : cond = true ∧ m ≤ k.data.length := by simpa using htake
    refine ⟨⟨crcBytes k.crc (k.data.take m), k.addr + m, k.data.drop m⟩, ?_, crcBytes_take_drop _ _ m,
      fun _ hlt => ?_⟩
    · rw [stepIf, if_pos htake, h.crcStep_eq _ (List.length_take_of_le hlen)]
      rfl
    · rw [List.length_drop]
      omega
  · refine ⟨k, by rw [stepIf, if_neg htake], rfl, fun hcond _ => ?_⟩
    simpa [hcond] using htake

/-! ### The naive, table and native scalar procedures -/

theorem returnsCrc_naiveProcedure : ReturnsCrc (naiveProcedure Rom.content) := stepsBytes_crcb8.returnsCrc_bytewise

theorem leavesCrc_tableHead (addr : Nat) (c : Word) (ds : List Byte) :
    LeavesCrc (tableHead Rom.content addr c ds) (crcBytes c ds) := by
  induction ds generalizing addr c with
  | nil => exact ⟨c, [], rfl, rfl⟩
  | cons d ds ih =>
    rw [tableHead]
    split
    · exact ⟨c, d :: ds, rfl, rfl⟩
    · rw [stepsBytes_crct8.crcStep_byte, crcBytes_cons]
      exact ih _ _

theorem returnsCrc_tableProcedure (addr : Nat) : ReturnsCrc (tableProcedure Rom.content addr) := fun r data =>
  (leavesCrc_tableHead addr r data).bind fun c ds =>
    (stepsBytes_crct32.leavesCrc_chunks (by decide) c ds).bind stepsBytes_crct8.returnsCrc_bytewise

/-- Fewer than 8 bytes are left after the chunks; the three steps of the tail take 4, 2 and 1 of them. -/
theorem returnsCrc_scalarProcedure (addr : Nat) : ReturnsCrc (scalarProcedure Rom.content addr) := by
  intro r data
  obtain ⟨k1, hrun1, hcrc1, -⟩ := stepsBytes_crc8.exists_stepIf (addr % 2 == 1) ⟨r, addr, data⟩
  obtain ⟨k2, hrun2, hcrc2, -⟩ := stepsBytes_crc16.exists_stepIf (k1.addr / 2 % 2 == 1) k1
  obtain ⟨k3, hrun3, hcrc3, -⟩ := stepsBytes_crc32.exists_stepIf (k2.addr / 4 % 2 == 1) k2
  obtain ⟨c, ds, hrunBulk, hcrcBulk, hlenBulk⟩ :=
    stepsBytes_crc64.exists_chunks (by decide) _ k3.crc k3.data (Nat.le_refl _)
  obtain ⟨k4, hrun4, hcrc4, hlen4⟩ := stepsBytes_crc32.exists_stepIf true ⟨c, 0, ds⟩
  obtain ⟨k5, hrun5, hcrc5, hlen5⟩ := stepsBytes_crc16.exists_stepIf true k4
  obtain ⟨k6, hrun6, hcrc6, hlen6⟩ := stepsBytes_crc8.exists_stepIf true k5
  have hrun : scalarProcedure Rom.content addr r data = .ok k6.crc := by
    simp only [scalarProcedure, bind, Except.bind, hrun1, hrun2, hrun3, hrunBulk, hrun4, hrun5, hrun6]
  have hlen : ds.length < 8 := hlenBulk ▸ Nat.mod_lt _ (by decide)
  have hdone : k6.data = [] := List.length_eq_zero_iff.mp (Nat.lt_one_iff.mp (hlen6 rfl (hlen5 rfl (hlen4 rfl hlen))))
  have hcrc : crcBytes k6.crc k6.data = crcBytes r data := by
    rw [hcrc6, hcrc5, hcrc4, hcrcBulk, hcrc3, hcrc2, hcrc1]
  rw [hrun, ← hcrc, hdone, crcBytes]

/-! ### The merge procedure -/

theorem chain64_eq (c : Word) {ds : List Byte} (h : 8 ∣ ds.length) :
    chain64 Rom.content c ds = .ok (crcBytes c ds) := by
  obtain ⟨c', ds', hrun, hcrc, hlen⟩ := stepsBytes_crc64.exists_chunks (by decide) _ c ds (Nat.le_refl _)
  have hdone : ds' = [] := List.length_eq_zero_iff.mp (by rw [hlen, Nat.mod_eq_zero_of_dvd h])
  rw [chain64, hrun, ← hcrc, hdone, crcBytes]
  rfl

/-- The reduced product with an exact constant is the shift (40 R108). -/
theorem shiftByClmul_eq (c : Word) {gap : Nat} (h : 33 ≤ gap) :
    shiftByClmul Rom.content c gap = .ok (mulxn c gap) := by
  obtain ⟨e, rfl⟩ := Nat.exists_eq_add_of_le h
  have hstep : crcStep Rom.content .crc64 0#32 (lo64 (clmul (c.setWidth 64) ((mulxn onePoly e).setWidth 64))) =
      .ok (mulxn c (33 + e)) := by
    rw [crcStep_of_wordReply (wordReply_crc64 _ _ _), lo64, setWidth_setWidth_self (by decide), ← clmulLow,
      crcBytes_clmulLow_power]
  simp only [shiftByClmul, powerBy_eq, bind, Except.bind, Nat.add_sub_cancel_left,
    issue_of_reply (reply_clmul_words c _), zext128, hstep]

section
variable {shape : MergeShape} {xs ys zs : List Byte} (c : Word)

/-- A block is two segments of `8m` bytes and the third stream with the tail (44 R187). -/
theorem MergeShape.exists_segments {block : List Byte} (h : block.length = shape.bytes) :
    ∃ xs ys zs, block = xs ++ (ys ++ zs) ∧ xs.length = 8 * shape.words ∧ ys.length = 8 * shape.words ∧
      zs.length = 8 * (shape.words + shape.tailWords) := by
  rw [MergeShape.bytes] at h
  refine ⟨block.take (8 * shape.words), (block.drop (8 * shape.words)).take (8 * shape.words),
    (block.drop (8 * shape.words)).drop (8 * shape.words), ?_, ?_, ?_, ?_⟩
  · rw [List.take_append_drop, List.take_append_drop]
  · simp only [List.length_take]; omega
  · simp only [List.length_take, List.length_drop]; omega
  · simp only [List.length_drop]; omega

variable (hxs : xs.length = 8 * shape.words) (hys : ys.length = 8 * shape.words)
  (hzs : zs.length = 8 * (shape.words + shape.tailWords))
include hxs hys hzs

theorem mergeChains_eq : mergeChains Rom.content shape c (xs ++ (ys ++ zs)) =
    .ok (crcBytes c xs, crcBytes 0#32 ys, crcBytes 0#32 zs) := by
  have htwo : 16 * shape.words = xs.length + ys.length := by omega
  have hfirst : (xs ++ (ys ++ zs)).take (8 * shape.words) = xs := List.take_left' hxs
  have hsecond : ((xs ++ (ys ++ zs)).drop (8 * shape.words)).take (8 * shape.words) = ys := by
    rw [List.drop_left' hxs, List.take_left' hys]
  have hthird : (xs ++ (ys ++ zs)).drop (16 * shape.words) = zs := by
    rw [htwo, ← List.drop_drop, List.drop_left, List.drop_left]
  simp only [mergeChains, hfirst, hsecond, hthird, bind, Except.bind, chain64_eq c (Dvd.intro _ hxs.symm),
    chain64_eq _ (Dvd.intro _ hys.symm), chain64_eq _ (Dvd.intro _ hzs.symm)]

/-- The CRCs of the first two segments are shifted past the bytes after each (44 R187). -/
theorem crcBytes_segments : crcBytes c (xs ++ (ys ++ zs)) =
    mulxn (crcBytes c xs) (8 * (shape.bytes - 8 * shape.words)) ^^^
      mulxn (crcBytes 0#32 ys) (8 * (shape.bytes - 16 * shape.words)) ^^^ crcBytes 0#32 zs := by
  have hafterFirst : shape.bytes - 8 * shape.words = (ys ++ zs).length := by
    rw [List.length_append, MergeShape.bytes]; omega
  have hafterSecond : shape.bytes - 16 * shape.words = zs.length := by rw [MergeShape.bytes]; omega
  rw [hafterFirst, hafterSecond, crcBytes_append, crcBytes_eq_shift_xor _ (ys ++ zs), crcBytes_append 0#32 ys,
    crcBytes_eq_shift_xor (crcBytes 0#32 ys) zs, BitVec.xor_assoc]

end

/-- With at least one word in each stream every shift is one of 64 bits or more. -/
theorem mergeBlock_eq {shape : MergeShape} (hwords : 1 ≤ shape.words) (c : Word) {block : List Byte}
    (h : block.length = shape.bytes) : mergeBlock Rom.content shape c block = .ok (crcBytes c block) := by
  obtain ⟨xs, ys, zs, rfl, hxs, hys, hzs⟩ := MergeShape.exists_segments h
  have hgapFirst : 33 ≤ 8 * (shape.bytes - 8 * shape.words) := by rw [MergeShape.bytes]; omega
  have hgapSecond : 33 ≤ 8 * (shape.bytes - 16 * shape.words) := by rw [MergeShape.bytes]; omega
  simp only [mergeBlock, mergeChains_eq c hxs hys hzs, bind, Except.bind, shiftByClmul_eq _ hgapFirst,
    shiftByClmul_eq _ hgapSecond, crcBytes_segments c hxs hys hzs]

theorem leavesCrc_mergeBlocks {shape : MergeShape} (hwords : 1 ≤ shape.words) (fuel : Nat) (c : Word)
    (ds : List Byte) : LeavesCrc (mergeBlocks Rom.content shape fuel c ds) (crcBytes c ds) := by
  induction fuel generalizing c ds with
  | zero => exact ⟨c, ds, rfl, rfl⟩
  | succ fuel ih =>
    rw [mergeBlocks]
    split
    · next hds =>
      rw [mergeBlock_eq hwords c (List.length_take_of_le hds), ← crcBytes_take_drop c ds shape.bytes]
      exact ih _ _
    · exact ⟨c, ds, rfl, rfl⟩

theorem returnsCrc_mergeProcedure {shape : MergeShape} (hwords : 1 ≤ shape.words) (addr : Nat) :
    ReturnsCrc (mergeProcedure Rom.content shape addr) := fun r data =>
  (leavesCrc_mergeBlocks hwords data.length r data).bind fun _ _ => returnsCrc_scalarProcedure _ _ _

/-! ### The fold procedure and the dispatcher -/

theorem issue_foldred (s n : Word) (a b : QWord) :
    issue Rom.content .foldred s a b n = .ok (zext128 (crcBytes 0#32 (leBytes a 16))) :=
  issue_complete Rom.content (by decide) exec_foldred_eq_crcBytes s a b n

/-- The accumulator stands for the bytes folded into it (43 R166). -/
theorem exists_foldBlocks (fuel : Nat) (acc : QWord) (ds : List Byte) :
    ∃ acc' ds', foldBlocks Rom.content fuel acc ds = .ok (acc', ds') ∧
      crcBytes 0#32 (leBytes acc' 16 ++ ds') = crcBytes 0#32 (leBytes acc 16 ++ ds) := by
  induction fuel generalizing acc ds with
  | zero => exact ⟨acc, ds, rfl, rfl⟩
  | succ fuel ih =>
    by_cases hds : 16 ≤ ds.length
    · obtain ⟨acc', ds', hrun, hcrc⟩ := ih (foldOnto acc (fromLe 128 (ds.take 16))) (ds.drop 16)
      have hblock : leBytes (fromLe 128 (ds.take 16)) 16 = ds.take 16 :=
        leBytes_fromLe_of_le (List.length_take_of_le hds) (by decide)
      refine ⟨acc', ds', ?_, ?_⟩
      · rw [foldBlocks, if_pos hds, issue_of_reply (reply_fold _ _ _ _)]
        exact hrun
      · rw [hcrc, crcBytes_foldOnto, hblock, List.append_assoc, List.take_append_drop]
    · exact ⟨acc, ds, by rw [foldBlocks, if_neg hds], rfl⟩

/-- The seed enters the first block by an XOR (43 R163), and the residue goes on from FOLDRED's result. -/
theorem foldPath_eq (addr : Nat) (r : Word) {data : List Byte} (h : 16 ≤ data.length) :
    foldPath Rom.content addr r data = .ok (crcBytes r data) := by
  obtain ⟨acc, ds, hrun, hcrc⟩ :=
    exists_foldBlocks data.length (fromLe 128 (data.take 16) ^^^ zext128 r) (data.drop 16)
  have hfirst : leBytes (fromLe 128 (data.take 16)) 16 = data.take 16 :=
    leBytes_fromLe_of_le (List.length_take_of_le h) (by decide)
  have hseed : crcBytes (crcBytes 0#32 (leBytes acc 16)) ds = crcBytes r data := by
    rw [← crcBytes_append, hcrc, crcBytes_append, zext128, ← crcBytes_leBytes_eq_xor (by decide) (by decide),
      hfirst, crcBytes_take_drop]
  simp only [foldPath, hrun, bind, Except.bind, issue_foldred, zext128_setWidth]
  rw [returnsCrc_scalarProcedure, hseed]

theorem returnsCrc_foldProcedure {minBlocks : Nat} (hmin : 2 ≤ minBlocks) (addr : Nat) :
    ReturnsCrc (foldProcedure Rom.content minBlocks addr) := by
  intro r data
  rw [foldProcedure]
  split
  · exact foldPath_eq addr r (by omega)
  · exact returnsCrc_scalarProcedure addr r data

theorem returnsCrc_dispatch {p : HostParams} (hfold : 2 ≤ p.foldMinBlocks) (hmerge : 1 ≤ p.merge.words)
    (addr : Nat) : ReturnsCrc (dispatch Rom.content p addr) := by
  intro r data
  obtain ⟨-, hrun⟩ | ⟨-, hrun⟩ | ⟨-, -, hrun⟩ := dispatch_cases Rom.content p addr r data
  · rw [hrun, returnsCrc_mergeProcedure hmerge]
  · rw [hrun, returnsCrc_foldProcedure hfold]
  · rw [hrun, returnsCrc_scalarProcedure]

/-! ### The public CRC -/

theorem compute_append (s : Word) (xs ys : List Byte) : compute s (xs ++ ys) = compute (compute s xs) ys := by
  simp only [compute, BitVec.not_not, crcBytes_append]

@[simp] theorem compute_nil (s : Word) : compute s [] = s := BitVec.not_not

theorem ReturnsCrc.computeBy_eq {engine : Word → List Byte → HostM Word} (h : ReturnsCrc engine) (seed : Word)
    (data : List Byte) : computeBy engine seed data = .ok (compute seed data) := by
  rw [computeBy, h]
  rfl

end Sys2Proof.Machine
end

section
/-! The host contract (spec 44): the concatenation law, and that every engine returns the serial CRC, as on the known
vectors. -/

namespace Sys2Proof.Machine

/-- Settles O54: the raw CRC of the first part is the raw seed of the second, and the two NOTs between them cancel. -/
theorem computeOverAConcatenation : Obligations.ComputeOverAConcatenation :=
  ⟨fun s xs ys => (compute_append s xs ys).symm, fun r xs ys => (crcBytes_append r xs ys).symm, compute_nil⟩

/-- Settles O55: each part of a procedure keeps the CRC of the bytes still to come, and the last part takes them all. -/
theorem everyEngineReturnsTheSerialCrc : Obligations.EveryEngineReturnsTheSerialCrc :=
  fun addr r data => ⟨returnsCrc_naiveProcedure r data, returnsCrc_tableProcedure addr r data,
    stepsBytes_crct8.returnsCrc_bytewise r data, returnsCrc_scalarProcedure addr r data,
    fun _ hwords => returnsCrc_mergeProcedure hwords addr r data,
    fun _ hmin => returnsCrc_foldProcedure hmin addr r data, foldPath_eq addr r⟩

/-- Settles O59: an engine that returns the raw CRC gives the public CRC, whose two values are computed. -/
theorem knownVectorsHoldForEveryEngine : Obligations.KnownVectorsHoldForEveryEngine := by
  unfold Obligations.KnownVectorsHoldForEveryEngine
  intro digits
  have hdigits : compute 0#32 digits = 0xE3069283#32 := by decide +kernel
  refine ⟨compute_nil _, hdigits, fun addr p hfold hmerge engine hmem => ?_⟩
  have hengine : ReturnsCrc engine := by
    simp only [List.mem_cons, List.not_mem_nil, or_false] at hmem
    obtain rfl | rfl | rfl | rfl | rfl | rfl := hmem
    · exact returnsCrc_naiveProcedure
    · exact returnsCrc_tableProcedure addr
    · exact returnsCrc_scalarProcedure addr
    · exact returnsCrc_mergeProcedure hmerge addr
    · exact returnsCrc_foldProcedure hfold addr
    · exact returnsCrc_dispatch hfold hmerge addr
  rw [hengine.computeBy_eq, hengine.computeBy_eq, compute_nil, hdigits]
  exact ⟨rfl, rfl⟩

end Sys2Proof.Machine
end

section
/-! Legal and illegal commands (spec 60 R200 to R207): a legal command completes with the result it has alone, and an
illegal one leaves its ILLEGAL response and nothing else for the commands after it. -/

namespace Sys2Proof.Machine

variable {s t : State} {c : Command} {rest : List Command} {i : Instr}

/-! ### Answering -/

theorem step_of_nextEvent_respond (he : s.nextEvent = .respond) : step s = respond s.advance := by
  rw [step, he, runEvent]

/-- A legal command has one answer on a ROM, and completes with it wherever it is the oldest in flight. -/
theorem exists_answerOf_exec (hd : decode c.cmd = .ok i) (rom : Rom) : ∃ r, answerOf rom c = some r ∧
    ∀ (s : State) (rest : List Command), s.rom = rom → s.inflight = c :: rest →
      exec i s = .next { s with inflight := rest, responses := s.responses ++ [.ok r] } := by
  obtain ⟨f, hf⟩ := exec_eq_complete (decode_wellFormed hd)
  refine ⟨f rom c, answerOf_complete hd hf rom, fun s rest hrom hs => ?_⟩
  rw [hf, State.complete_eq_next hs, hrom]

theorem step_illegal_eq_fault (hs : s.inflight = c :: rest) (hd : ¬ ∃ i, decode c.cmd = .ok i)
    (he : s.nextEvent = .respond) : step s = .fault (.illegal c.cmd
      { s with inflight := rest, responses := s.responses ++ [.illegal], schedule := s.schedule.tail }) :=
  (step_of_nextEvent_respond he).trans (respond_illegal_eq_fault (s := s.advance) hs hd)

/-- The two codes of 60 R200, each with or without a result. -/
theorem Response.status_cases (r : Response) :
    (r.status = 0#2 ∧ ∃ v, r.result = some v) ∨ (r.status = 1#2 ∧ r.result = none) := by
  cases r with
  | ok v => exact .inl ⟨rfl, v, rfl⟩
  | illegal => exact .inr ⟨rfl, rfl⟩

/-! ### The statements -/

/-- Settles O7: the fault's state has the same ROM, so a legal command next in it completes with the result it has
alone. -/
theorem illegalWordFaultsAndOnlyTakesItsPlace : Obligations.IllegalWordFaultsAndOnlyTakesItsPlace := by
  refine ⟨fun s w sOp n a b rest hs hd he => step_illegal_eq_fault hs hd he,
    fun s t w d rest i hfault ht hd => ?_, rfl, rfl⟩
  obtain ⟨r, hr, hexec⟩ := exists_answerOf_exec hd s.rom
  exact ⟨r, hexec t rest (step_fault_rom hfault) ht, hr⟩

/-- Settles O8: the fault's state and the state without the illegal command have the same ROM and the same command
next. -/
theorem afterIllegalTheNextCommandIsUnaffected : Obligations.AfterIllegalTheNextCommandIsUnaffected := by
  intro s t c d rest hs hc ⟨i, hd⟩ hfault
  obtain rfl : { s with inflight := d :: rest, responses := s.responses ++ [.illegal] } = t := by
    rw [respond_illegal_eq_fault hs hc] at hfault
    exact (Fault.illegal.inj (Host.Outcome.fault.inj hfault)).2
  obtain ⟨r, -, hexec⟩ := exists_answerOf_exec hd s.rom
  refine ⟨r, ?_, (respond_legal rfl hd).trans (hexec _ rest rfl rfl)⟩
  rw [respond_legal rfl hd, hexec _ rest, List.append_assoc, List.singleton_append] <;> rfl

/-- Settles O9: a decoded command completes with its answer, and each kind of response has its own status. -/
theorem legalCommandAlwaysCompletesWithOk : Obligations.LegalCommandAlwaysCompletesWithOk := by
  refine ⟨fun s c rest i hs hd => ?_, Response.status_cases⟩
  obtain ⟨r, -, hexec⟩ := exists_answerOf_exec hd s.rom
  exact ⟨r, hexec s rest rfl hs, rfl, rfl⟩

end Sys2Proof.Machine
end

section
/-! Decoding and encoding (spec 30 R60 to R64): the word of a well-formed instruction decodes to it, and no word
decodes to a TBLRD of no table row. -/

namespace Sys2Proof.Machine

theorem decode_encode {i : Instr} (hi : i.wellFormed = true) : decode (encode i) = .ok i := by
  cases i with
  | crcb8 => exact Laws.RoundTrip.crcb8 hi
  | crct8 => exact Laws.RoundTrip.crct8 hi
  | crct32 => exact Laws.RoundTrip.crct32 hi
  | tblrd row => exact Laws.RoundTrip.tblrd row hi
  | crc8 => exact Laws.RoundTrip.crc8 hi
  | crc16 => exact Laws.RoundTrip.crc16 hi
  | crc32 => exact Laws.RoundTrip.crc32 hi
  | crc64 => exact Laws.RoundTrip.crc64 hi
  | xnmodp => exact Laws.RoundTrip.xnmodp hi
  | clmul => exact Laws.RoundTrip.clmul hi
  | merge => exact Laws.RoundTrip.merge hi
  | fold => exact Laws.RoundTrip.fold hi
  | foldred => exact Laws.RoundTrip.foldred hi

/-- Settles O1: no bit of a legal word is lost in decoding, and the word of a well-formed instruction decodes to it. -/
theorem decodeAndEncodeAgreeBothWays : Obligations.DecodeAndEncodeAgreeBothWays := by
  refine fun w i => ⟨fun hd => ⟨decode_wellFormed hd, encode_of_decode hd⟩, ?_⟩
  rintro ⟨hi, rfl⟩
  exact decode_encode hi

/-- Settles O4: each of the eight words is decoded. -/
theorem wordsWrittenFromTheEncodingDecode : Obligations.WordsWrittenFromTheEncodingDecode := by
  refine ⟨?_, ?_, ?_, ?_, ?_, ?_, ?_, ?_⟩ <;> decide

/-- Settles O29: a decoded TBLRD is well-formed, so its row is below 4. -/
theorem tblrdOfNoRowIsRefused : Obligations.TblrdOfNoRowIsRefused := by
  refine fun s row hrow => ⟨exec_tblrd_refused s row (Nat.not_lt.mpr hrow), fun w hd => ?_⟩
  have hlt : row < 4 := of_decide_eq_true (decode_wellFormed hd)
  exact Nat.not_lt.mpr hrow hlt

end Sys2Proof.Machine
end

section
/-! What one step does, event by event (spec 10 R26, R28, 20 R49, 70 R230, R231): each event in terms of its operation,
and a decoded command at the head of INFLIGHT in terms of `exec`. -/

namespace Sys2Proof.Machine

variable {s : State} {c : Command} {rest : List Command} {i : Instr}

/-! ### One event -/

theorem step_of_nextEvent {e : Event} (he : s.nextEvent = e) : step s = runEvent e s.advance := by rw [step, he]

theorem State.accept_of_offered_nil (h : s.offered = []) : s.accept = s := by rw [State.accept, h]

theorem State.accept_of_room (h : s.offered = c :: rest) (hroom : s.inflight.length < Config.maxInflight) :
    s.accept = { s with inflight := s.inflight ++ [c], offered := rest } := by
  rw [State.accept, h]
  exact if_pos (decide_eq_true hroom)

/-- An empty INFLIGHT has room, since `MAX_INFLIGHT` is at least 1 (10 R28). -/
theorem State.accept_of_inflight_nil (hin : s.inflight = []) (hoff : s.offered = c :: rest) :
    s.accept = { s with inflight := [c], offered := rest } := by
  have hroom : s.inflight.length < Config.maxInflight := by
    rw [hin]
    exact Nat.succ_pos _
  rw [State.accept_of_room hoff hroom, hin, List.nil_append]

/-- A full block holds the host at the port (10 R28, 93 I3). -/
theorem State.accept_of_full (hfull : Config.maxInflight ≤ s.inflight.length) : s.accept = s := by
  have hroom : s.hasRoom = false := decide_eq_false (Nat.not_lt.mpr hfull)
  unfold State.accept
  split
  · rfl
  · rw [hroom]
    rfl

theorem State.deliver_nil (h : s.responses = []) : s.deliver = s := by rw [State.deliver, h]

theorem State.deliver_cons {r : Response} {rest : List Response} (h : s.responses = r :: rest) :
    s.deliver = { s with responses := rest, delivered := s.delivered ++ [r] } := by rw [State.deliver, h]

/-- Answering a legal command runs its meaning. -/
theorem step_respond_legal (he : s.nextEvent = .respond) (hs : s.inflight = c :: rest) (hd : decode c.cmd = .ok i) :
    step s = exec i s.advance :=
  (step_of_nextEvent_respond he).trans (respond_legal (s := s.advance) hs hd)

/-! ### The word that `withFetchWord` places -/

theorem decode_of_decodeTableWord {nbits w : Nat} (h : decodeTableWord nbits w = some i) :
    decode (BitVec.ofNat 32 (w % 2 ^ nbits)) = .ok i := by
  simp only [decodeTableWord] at h
  split at h
  · split at h
    · next j hj => rw [hj, Option.some.inj h]
    · cases h
  · cases h

theorem State.placeCommand_inflight (s : State) (w : Word) :
    ∃ c rest, (s.placeCommand w).inflight = c :: rest ∧ c.cmd = w := by
  unfold State.placeCommand
  cases s.inflight with
  | nil => exact ⟨_, [], rfl, rfl⟩
  | cons c rest => exact ⟨_, rest, rfl, rfl⟩

/-- A schedule that would do something else first is put off, and a used-up one answers what is in flight. -/
theorem State.placeCommand_nextEvent (s : State) (w : Word) : (s.placeCommand w).nextEvent = .respond := by
  cases hsched : s.schedule with
  | nil =>
    obtain ⟨c, rest, hin, -⟩ := s.placeCommand_inflight w
    exact State.nextEvent_respond (by rw [State.placeCommand, hsched]) hin
  | cons e es => cases e <;> simp [State.placeCommand, State.nextEvent, hsched]

/-! ### The statements -/

/-- Settles O6: both states answer, and the oldest command in flight decodes to the instruction. -/
theorem stepRunsTheDecodedCommand : Obligations.StepRunsTheDecodedCommand := by
  refine ⟨fun s c rest i hs hd => ⟨fun hsched => ?_, fun es hsched => ?_⟩, fun s nbits w i hw => ?_⟩
  · rw [step_respond_legal (State.nextEvent_respond hsched hs) hs hd, State.advance, hsched, List.tail_nil, ← hsched]
  · rw [step_respond_legal (State.nextEvent_cons hsched) hs hd, State.advance, hsched, List.tail_cons]
  · obtain ⟨c, rest, hs, hcmd⟩ := s.placeCommand_inflight (BitVec.ofNat 32 (w % 2 ^ nbits))
    have hd : decode c.cmd = .ok i := hcmd ▸ decode_of_decodeTableWord hw
    exact ⟨step_respond_legal (s.placeCommand_nextEvent _) hs hd, c, rest, hs, hd⟩

/-- Settles O10, by the two cases of the room in INFLIGHT. -/
theorem acceptTakesTheOldestOfferedWhenThereIsRoom : Obligations.AcceptTakesTheOldestOfferedWhenThereIsRoom := by
  refine ⟨fun s c rest he hoff => ⟨fun hroom => ?_, fun hfull => ?_⟩, Nat.succ_pos _, State.reset_inflight⟩
  · rw [step_of_nextEvent he, runEvent, State.accept_of_room (s := s.advance) hoff hroom]
    rfl
  · rw [step_of_nextEvent he, runEvent, State.accept_of_full (s := s.advance) hfull]
    rfl

/-- Settles O16: the reset event is `resetBlock`. -/
theorem resetDropsAcceptedCommandsAndUndeliveredResponses :
    Obligations.ResetDropsAcceptedCommandsAndUndeliveredResponses := by
  intro s he
  rw [step_of_nextEvent he, runEvent, State.resetBlock]
  rfl

/-- Settles O60, event by event. -/
theorem portEventsMoveTheOldestItemOrNothing : Obligations.PortEventsMoveTheOldestItemOrNothing := by
  refine fun s => ⟨fun r rest he hr => ?_, fun he hr => ?_, fun he hoff => ?_, fun he hin => ?_, fun he => ?_⟩
  · rw [step_of_nextEvent he, runEvent, State.deliver_cons (s := s.advance) hr]
    rfl
  · rw [step_of_nextEvent he, runEvent, State.deliver_nil (s := s.advance) hr]
    rfl
  · rw [step_of_nextEvent he, runEvent, State.accept_of_offered_nil (s := s.advance) hoff]
    rfl
  · rw [step_of_nextEvent he, runEvent, respond_nil (s := s.advance) hin]
    rfl
  · rw [step_of_nextEvent he, runEvent]
    rfl

/-- Settles O17: an empty INFLIGHT has room, and a legal command completes with its answer. -/
theorem afterResetACommandIsAcceptedAndAnsweredAtOnce :
    Obligations.AfterResetACommandIsAcceptedAndAnsweredAtOnce := by
  refine fun c es => ⟨?_, fun i hd => ?_⟩
  · exact congrArg Host.Outcome.next (State.accept_of_inflight_nil rfl rfl)
  · obtain ⟨r, hr, hexec⟩ := exists_answerOf_exec hd Rom.content
    exact ⟨r, hr, step_respond_legal rfl rfl hd, hexec _ [] rfl rfl⟩

end Sys2Proof.Machine
end

section
/-! The state after a step (spec 10 R28, 20 R49, 60 R202): every step, one that ends in the ILLEGAL fault too, leads to
one state from which the block goes on. What every step keeps and the work left for the block are laws of that state. -/

namespace Sys2Proof.Machine

variable {s t : State} {c : Command} {rest : List Command}

/-! ### The state the block goes on from -/

/-- The oldest command in flight, where there is one, gets its own response, OK or ILLEGAL. -/
def State.answerOldest (s : State) : State :=
  match s.inflight with
  | [] => s
  | c :: _ => s.answer (responseOf s.rom c)

/-- The state after an event. -/
def State.after (s : State) : Event → State
  | .accept => s.accept
  | .respond => s.answerOldest
  | .deliver => s.deliver
  | .wait => s
  | .reset => s.resetBlock

/-- The state after a step: the next state, or the one the ILLEGAL fault carries (`step_eq_next_or_fault`). -/
def State.successor (s : State) : State := s.advance.after s.nextEvent

theorem State.answerOldest_nil (h : s.inflight = []) : s.answerOldest = s := by
  rw [State.answerOldest, h]

theorem State.answerOldest_cons (h : s.inflight = c :: rest) : s.answerOldest = s.answer (responseOf s.rom c) := by
  rw [State.answerOldest, h]

@[simp] theorem State.answerOldest_rom (s : State) : s.answerOldest.rom = s.rom := by
  unfold State.answerOldest; split <;> rfl

@[simp] theorem State.answerOldest_inflight (s : State) : s.answerOldest.inflight = s.inflight.tail := by
  unfold State.answerOldest
  split
  · next h => rw [h, List.tail_nil]
  · rfl

@[simp] theorem State.answerOldest_offered (s : State) : s.answerOldest.offered = s.offered := by
  unfold State.answerOldest; split <;> rfl

@[simp] theorem State.answerOldest_schedule (s : State) : s.answerOldest.schedule = s.schedule := by
  unfold State.answerOldest; split <;> rfl

/-- Answering ends in the fault exactly where the oldest command is illegal; either way it answers that command. -/
theorem respond_eq_next_or_fault (s : State) : respond s = .next s.answerOldest ∨
    ∃ c ∈ s.inflight, (¬ c.Legal) ∧ respond s = .fault (.illegal c.cmd s.answerOldest) := by
  cases hs : s.inflight with
  | nil => exact .inl (by rw [respond_nil hs, State.answerOldest_nil hs])
  | cons c rest =>
    rw [State.answerOldest_cons hs]
    cases hd : decode c.cmd with
    | error e =>
      have hillegal : ¬ c.Legal := fun ⟨i, hi⟩ => by cases hd.symm.trans hi
      exact .inr ⟨c, List.mem_cons_self, hillegal, by rw [respond_illegal hs hd, responseOf_illegal hd]⟩
    | ok i =>
      obtain ⟨f, hf⟩ := exec_eq_complete (decode_wellFormed hd)
      exact .inl (by rw [respond_legal hs hd, hf, State.complete_cons hs, responseOf_complete hd hf])

/-- A step ends in the fault exactly where it answers an illegal command; either way it leads to `successor`. -/
theorem step_eq_next_or_fault (s : State) : step s = .next s.successor ∨
    ∃ c ∈ s.inflight, (¬ c.Legal) ∧ step s = .fault (.illegal c.cmd s.successor) := by
  unfold step State.successor
  cases s.nextEvent with
  | respond => exact respond_eq_next_or_fault s.advance
  | accept | deliver | wait | reset => exact .inl rfl

theorem eq_successor_of_step_next (h : step s = .next t) : t = s.successor := by
  obtain hs | ⟨c, -, -, hs⟩ := step_eq_next_or_fault s <;> rw [hs] at h <;> cases h
  rfl

theorem eq_successor_of_step_fault {w : Word} (h : step s = .fault (.illegal w t)) : t = s.successor := by
  obtain hs | ⟨c, -, -, hs⟩ := step_eq_next_or_fault s <;> rw [hs] at h <;> cases h
  rfl

/-! ### The block's invariant -/

/-- INFLIGHT grows only where it has room. -/
theorem State.accept_inflight_bound (h : s.inflight.length ≤ Config.maxInflight) :
    s.accept.inflight.length ≤ Config.maxInflight := by
  unfold State.accept
  split
  · exact h
  · split
    · next hroom =>
      rw [List.length_append, List.length_singleton]
      exact of_decide_eq_true hroom
    · exact h

theorem State.Inv.after (h : s.Inv) (e : Event) : (s.after e).Inv := by
  obtain ⟨hrom, hbound⟩ := h
  cases e with
  | accept => exact ⟨(State.accept_rom s).trans hrom, State.accept_inflight_bound hbound⟩
  | respond =>
    refine ⟨(State.answerOldest_rom s).trans hrom, ?_⟩
    rw [State.after, State.answerOldest_inflight, List.length_tail]
    exact (Nat.sub_le _ _).trans hbound
  | deliver => exact ⟨(State.deliver_rom s).trans hrom, by rwa [State.after, State.deliver_inflight]⟩
  | wait => exact ⟨hrom, hbound⟩
  | reset => exact ⟨hrom, Nat.zero_le _⟩

theorem State.Inv.successor (h : s.Inv) : s.successor.Inv :=
  State.Inv.after (s := s.advance) ⟨h.romContent, h.inflightBound⟩ s.nextEvent

/-! ### Legal commands -/

/-- Accepting moves commands, and lets none in from elsewhere. -/
theorem State.AllLegal.accept (h : s.AllLegal) : s.accept.AllLegal := by
  have hqueue : ∀ c ∈ s.accept.inflight ++ s.accept.offered, c.Legal := by
    rw [State.accept_queue, List.forall_mem_append]
    exact ⟨h.inflight, h.offered⟩
  obtain ⟨hinflight, hoffered⟩ := List.forall_mem_append.mp hqueue
  exact ⟨hinflight, hoffered⟩

theorem State.AllLegal.after (h : s.AllLegal) (e : Event) : (s.after e).AllLegal := by
  cases e with
  | accept => exact h.accept
  | respond =>
    refine ⟨fun c hc => h.inflight c (List.mem_of_mem_tail ?_), fun c hc => h.offered c ?_⟩
    · rwa [State.after, State.answerOldest_inflight] at hc
    · rwa [State.after, State.answerOldest_offered] at hc
  | deliver =>
    refine ⟨fun c hc => h.inflight c ?_, fun c hc => h.offered c ?_⟩
    · rwa [State.after, State.deliver_inflight] at hc
    · rwa [State.after, State.deliver_offered] at hc
  | wait => exact h
  | reset => exact ⟨fun c hc => absurd hc List.not_mem_nil, h.offered⟩

theorem State.AllLegal.successor (h : s.AllLegal) : s.successor.AllLegal :=
  State.AllLegal.after (s := s.advance) ⟨h.inflight, h.offered⟩ s.nextEvent

/-! ### The work left for the block -/

@[simp] theorem State.after_schedule (s : State) (e : Event) : (s.after e).schedule = s.schedule := by
  cases e with
  | accept => exact State.accept_schedule s
  | respond => exact State.answerOldest_schedule s
  | deliver => exact State.deliver_schedule s
  | wait | reset => rfl

@[simp] theorem State.successor_schedule (s : State) : s.successor.schedule = s.schedule.tail := by
  rw [State.successor, State.after_schedule, State.advance_schedule]

/-- Events that the commands still need: one answer each, and one acceptance for each offered. -/
def State.pending (s : State) : Nat := s.inflight.length + 2 * s.offered.length

/-- The bound of 70 R244 in the model's order: the events scheduled, then those that the commands still need. -/
def State.work (s : State) : Nat := s.schedule.length + s.pending

/-- A command moves on by one event. -/
theorem State.pending_accept_le (s : State) : s.accept.pending ≤ s.pending := by
  have hqueue := congrArg List.length (State.accept_queue s)
  have hoffered : s.accept.offered.length ≤ s.offered.length := by
    unfold State.accept
    split
    · exact Nat.le_refl _
    · next hoffered => split <;> simp [hoffered]
  simp only [List.length_append] at hqueue
  unfold State.pending
  omega

theorem State.pending_after_le (s : State) (e : Event) : (s.after e).pending ≤ s.pending := by
  cases e with
  | accept => exact s.pending_accept_le
  | respond =>
    simp only [State.after, State.pending, State.answerOldest_inflight, State.answerOldest_offered, List.length_tail]
    omega
  | deliver =>
    simp only [State.after, State.pending, State.deliver_inflight, State.deliver_offered]
    exact Nat.le_refl _
  | wait => exact Nat.le_refl _
  | reset =>
    simp only [State.after, State.pending, State.resetBlock_inflight, State.resetBlock_offered, List.length_nil]
    omega

/-- With the schedule used up the block answers or accepts, so a command moves on, until none is left. -/
theorem State.pending_successor_of_schedule_nil (h : s.schedule = []) : s.successor.pending ≤ s.pending - 1 := by
  cases hin : s.inflight with
  | cons c rest =>
    rw [State.successor, State.nextEvent_respond h hin]
    simp [State.after, State.pending, hin]
  | nil =>
    rw [State.successor, State.nextEvent_accept h hin]
    cases hoff : s.offered with
    | nil => simp [State.after, State.accept, State.pending, hin, hoff]
    | cons c rest =>
      rw [State.after, State.accept_of_inflight_nil (s := s.advance) hin hoff]
      simp only [State.pending, hin, hoff, List.length_nil, List.length_cons]
      omega

/-- Every step does one event's work, while any is left. -/
theorem State.work_successor_le (s : State) : s.successor.work ≤ s.work - 1 := by
  rw [State.work, State.successor_schedule, State.work]
  cases h : s.schedule with
  | nil => simpa using State.pending_successor_of_schedule_nil h
  | cons e es =>
    have hpending : s.successor.pending ≤ s.pending := State.pending_after_le s.advance s.nextEvent
    simp only [List.tail_cons, List.length_cons]
    omega

/-- No work is left exactly when every command is answered and the schedule is used up. -/
theorem State.work_eq_zero_iff (s : State) : s.work = 0 ↔ s.schedule = [] ∧ s.inflight = [] ∧ s.offered = [] := by
  simp [State.work, State.pending]

/-! ### Running through ILLEGAL responses -/

theorem runOn_succ (k : Nat) (s : State) : runOn (k + 1) s = runOn k s.successor := by
  obtain hs | ⟨c, -, -, hs⟩ := step_eq_next_or_fault s <;> simp [runOn, hs]

theorem work_runOn_le (k : Nat) (s : State) : (runOn k s).work ≤ s.work - k := by
  induction k generalizing s with
  | zero => exact Nat.le_refl _
  | succ k ih =>
    have hstep := s.work_successor_le
    have hrun := ih s.successor
    rw [runOn_succ]
    omega

theorem nextEvent_ne_reset (h : Event.reset ∉ s.schedule) : s.nextEvent ≠ .reset := by
  unfold State.nextEvent
  split
  · next e es hs =>
    rintro rfl
    exact h (hs ▸ List.mem_cons_self)
  · split <;> simp

theorem stream_successor (h : Event.reset ∉ s.schedule) : stream s.successor = stream s := by
  obtain hs | ⟨c, -, -, hs⟩ := step_eq_next_or_fault s
  · exact stream_of_step_next (nextEvent_ne_reset h) hs
  · exact stream_of_step_fault hs

theorem stream_runOn (k : Nat) (h : Event.reset ∉ s.schedule) : stream (runOn k s) = stream s := by
  induction k generalizing s with
  | zero => rfl
  | succ k ih =>
    have htail : Event.reset ∉ s.successor.schedule := by
      rw [State.successor_schedule]
      exact fun hmem => h (List.mem_of_mem_tail hmem)
    rw [runOn_succ, ih htail, stream_successor h]

/-! ### The statements -/

/-- Settles O13: no event writes the ROM, and the one event that adds to INFLIGHT asks for room first. -/
theorem everyStepKeepsTheBlockInvariant : Obligations.EveryStepKeepsTheBlockInvariant :=
  fun _ hinv => ⟨fun _ h => eq_successor_of_step_next h ▸ hinv.successor,
    fun _ _ h => eq_successor_of_step_fault h ▸ hinv.successor⟩

/-- Settles O14, by the fields of the reset state. -/
theorem blockInvariantHoldsAtReset : Obligations.BlockInvariantHoldsAtReset :=
  ⟨State.reset_rom, Nat.zero_le _⟩

/-- Settles O20: a fault answers an illegal command in flight, and events only move or drop commands. -/
theorem statesWithoutIllegalWordsNeverFault : Obligations.StatesWithoutIllegalWordsNeverFault := by
  intro s hlegal
  obtain hs | ⟨c, hc, hillegal, -⟩ := step_eq_next_or_fault s
  · exact ⟨_, hs, hlegal.successor⟩
  · exact absurd (hlegal.inflight c hc) hillegal

/-- Settles O12: the work left falls by one with each step, and the stream stays as it is. -/
theorem everyCommandIsAnsweredWithoutReset : Obligations.EveryCommandIsAnsweredWithoutReset := by
  intro s hreset t
  have hsteps : s.schedule.length + s.inflight.length + 2 * s.offered.length = s.work := Nat.add_assoc _ _ _
  have hwork : t.work = 0 := by
    have hle := work_runOn_le s.work s
    rw [Nat.sub_self, ← hsteps] at hle
    exact Nat.le_zero.mp hle
  obtain ⟨-, hin, hoff⟩ := t.work_eq_zero_iff.mp hwork
  have hstream : stream t = stream s := stream_runOn _ hreset
  refine ⟨hin, hoff, ?_⟩
  rw [← hstream, stream, hin, hoff, List.append_nil, List.map_nil, List.append_nil]

end Sys2Proof.Machine
end

section
/-! The operand table (spec 30 R65, 10 R26): each command's rule reads the bits of the table and no others, and its
result has the table's width. -/

namespace Sys2Proof.Machine

variable {i : Instr} {c d : Command}

/-! ### The bits a command reads -/

/-- The command with every bit that the instruction does not read set to 0. -/
def Command.readPart (i : Instr) (c : Command) : Command where
  cmd := c.cmd
  s := (c.s.setWidth (reads i).s).setWidth 32
  a := (c.a.setWidth (reads i).a).setWidth 128
  b := (c.b.setWidth (reads i).b).setWidth 128
  n := (c.n.setWidth (reads i).n).setWidth 32

theorem setWidth_eq_of_low_bits {w k : Nat} {x y : BitVec w} (h : ∀ j < k, x.getLsbD j = y.getLsbD j) :
    x.setWidth k = y.setWidth k :=
  BitVec.eq_of_getLsbD_eq fun j hj => by rw [BitVec.getLsbD_setWidth, BitVec.getLsbD_setWidth, h j hj]

theorem AgreeOnReads.readPart_eq (h : AgreeOnReads i c d) : c.readPart i = d.readPart i := by
  obtain ⟨hcmd, hs, ha, hb, hn⟩ := h
  simp only [Command.readPart, hcmd, setWidth_eq_of_low_bits hs, setWidth_eq_of_low_bits ha,
    setWidth_eq_of_low_bits hb, setWidth_eq_of_low_bits hn]

/-- `f` is the instruction's rule, and it obeys the instruction's row of the operand table. -/
structure ObeysOperandTable (i : Instr) (f : Rom → Command → QWord) : Prop where
  exec_eq : ∀ s, exec i s = s.complete f
  reads : ∀ rom c, f rom (c.readPart i) = f rom c
  width : ∀ rom c, (f rom c).toNat < 2 ^ resultWidth i

theorem zext128_toNat_lt (r : Word) : (zext128 r).toNat < 2 ^ 32 := by
  rw [zext128, BitVec.toNat_setWidth_of_le (by decide)]
  exact r.isLt

section
variable (c : Command)

theorem Command.readPart_s (h : (reads i).s = 32) : (c.readPart i).s = c.s := by
  rw [Command.readPart, h, BitVec.setWidth_eq, BitVec.setWidth_eq]

theorem Command.readPart_n (h : (reads i).n = 32) : (c.readPart i).n = c.n := by
  rw [Command.readPart, h, BitVec.setWidth_eq, BitVec.setWidth_eq]

/-- The low `k` bits of `A` are kept where the instruction reads `k` bits of it. -/
theorem Command.readPart_a (k : Nat) (h : (reads i).a = k) (hk : k ≤ 128) :
    (c.readPart i).a.setWidth k = c.a.setWidth k := by
  rw [Command.readPart, h, setWidth_setWidth_self hk]

theorem Command.readPart_b (k : Nat) (h : (reads i).b = k) (hk : k ≤ 128) :
    (c.readPart i).b.setWidth k = c.b.setWidth k := by
  rw [Command.readPart, h, setWidth_setWidth_self hk]

theorem Command.readPart_whole_a (h : (reads i).a = 128) : (c.readPart i).a = c.a := by
  simpa only [BitVec.setWidth_eq] using c.readPart_a 128 h (Nat.le_refl _)

theorem Command.readPart_whole_b (h : (reads i).b = 128) : (c.readPart i).b = c.b := by
  simpa only [BitVec.setWidth_eq] using c.readPart_b 128 h (Nat.le_refl _)

end

/-! ### Every rule -/

/-- A rule of the seed and the low `k` bits of `A` with a 32-bit result. -/
theorem obeysOperandTable_of_seed_and_data {k : Nat} (g : Rom → Word → BitVec k → Word)
    (hs : (reads i).s = 32) (ha : (reads i).a = k) (hk : k ≤ 128) (hw : resultWidth i = 32)
    (hf : ∀ s, exec i s = s.complete fun rom c => zext128 (g rom c.s (c.a.setWidth k))) :
    ObeysOperandTable i fun rom c => zext128 (g rom c.s (c.a.setWidth k)) where
  exec_eq := hf
  reads rom c := by rw [c.readPart_s hs, c.readPart_a k ha hk]
  width rom c := hw ▸ zext128_toNat_lt _

theorem IsNativeStep.exists_obeysOperandTable {m : Nat} (h : IsNativeStep i m) (hs : (reads i).s = 32)
    (ha : (reads i).a = 8 * m) (hm : 8 * m ≤ 128) (hw : resultWidth i = 32) : ∃ f, ObeysOperandTable i f := by
  refine ⟨_, obeysOperandTable_of_seed_and_data (fun _ r d => crcBytes r (leBytes d m)) hs ha hm hw fun s => ?_⟩
  simpa only [leBytes_setWidth (Nat.le_refl _)] using h.exec_eq s

/-- The rule of every well-formed instruction obeys its row. -/
theorem exists_obeysOperandTable (hi : i.wellFormed = true) : ∃ f, ObeysOperandTable i f := by
  cases i with
  | crcb8 => exact ⟨_, obeysOperandTable_of_seed_and_data (fun _ => crcByte) rfl rfl (by decide) rfl exec_crcb8_eq⟩
  | crct8 => exact ⟨_, obeysOperandTable_of_seed_and_data tableStep8 rfl rfl (by decide) rfl exec_crct8_eq⟩
  | crct32 => exact ⟨_, obeysOperandTable_of_seed_and_data tableStep32 rfl rfl (by decide) rfl exec_crct32_eq⟩
  | crc8 => exact isNativeStep_crc8.exists_obeysOperandTable rfl rfl (by decide) rfl
  | crc16 => exact isNativeStep_crc16.exists_obeysOperandTable rfl rfl (by decide) rfl
  | crc32 => exact isNativeStep_crc32.exists_obeysOperandTable rfl rfl (by decide) rfl
  | crc64 => exact isNativeStep_crc64.exists_obeysOperandTable rfl rfl (by decide) rfl
  | tblrd row =>
    have hrow : row < 4 := of_decide_eq_true hi
    refine ⟨_, (exec_tblrd_eq · row hrow), fun rom c => ?_, fun _ _ => zext128_toNat_lt _⟩
    rw [Command.byteA, c.readPart_a 8 rfl (by decide)]
    rfl
  | xnmodp =>
    refine ⟨_, exec_xnmodp_eq, fun rom c => ?_, fun _ _ => zext128_toNat_lt _⟩
    rw [c.readPart_n rfl]
  | merge =>
    refine ⟨_, exec_merge_eq, fun rom c => ?_, fun _ _ => zext128_toNat_lt _⟩
    rw [c.readPart_n rfl, c.readPart_s rfl, Command.wordA, c.readPart_a 32 rfl (by decide)]
    rfl
  | clmul =>
    refine ⟨_, exec_clmul_eq, fun rom c => ?_, fun _ _ => BitVec.isLt _⟩
    rw [Command.loA, Command.loB, c.readPart_a 64 rfl (by decide), c.readPart_b 64 rfl (by decide)]
    rfl
  | fold =>
    refine ⟨_, exec_fold_eq, fun rom c => ?_, fun _ _ => BitVec.isLt _⟩
    rw [Command.loA, Command.hiA, c.readPart_whole_a rfl, c.readPart_whole_b rfl]
    rfl
  | foldred =>
    refine ⟨_, exec_foldred_eq_crcBytes, fun rom c => ?_, fun _ _ => zext128_toNat_lt _⟩
    rw [c.readPart_whole_a rfl]

/-! ### The statement -/

/-- Settles O19: the rule of the instruction gives both commands the result of the bits they share. -/
theorem unreadBitsAreIgnoredAndResultsHaveTheirWidth :
    Obligations.UnreadBitsAreIgnoredAndResultsHaveTheirWidth := by
  intro s c d rest i hd hagree
  obtain ⟨f, hexec, hreads, hwidth⟩ := exists_obeysOperandTable (decode_wellFormed hd)
  have hresult : f s.rom d = f s.rom c := by rw [← hreads, ← hagree.readPart_eq, hreads]
  refine ⟨f s.rom c, ?_, ?_, hwidth s.rom c⟩
  · rw [hexec, State.complete_eq_next rfl]
  · rw [hexec, State.complete_eq_next rfl, hresult]

end Sys2Proof.Machine
end

section
/-! Native steps as polynomials (spec 42 R145): each is one step over the message of its chunk. -/

namespace Sys2Proof.Machine

open Polynomial

/-- A native step of `m` bytes is one step over their message (42 R145). -/
theorem IsNativeStep.wordReply_modByMonic {i : Instr} {m : Nat} (h : IsNativeStep i m) (hm : 8 * m ≤ 128)
    (s : Word) (a : QWord) : ∃ r, wordReply i s a 0#32 = some r ∧
      poly32 r = (poly32 s * X ^ (8 * m) + msgBits (a.extractLsb' 0 (8 * m)) * X ^ 32) %ₘ genP := by
  refine ⟨_, h.wordReply_eq s 0#32 a, (poly32_eq_modByMonic_iff _ _).mpr ?_⟩
  rw [residue_crcBytes, msgBytes_leBytes_eq_setWidth, length_leBytes, BitVec.setWidth_eq_extractLsb' hm]

/-- Settles O49: each command is the native step of its width in bytes. -/
theorem nativeStepsAreRemaindersOfTheirMessage : Obligations.NativeStepsAreRemaindersOfTheirMessage := by
  intro s a p hp
  simp only [List.mem_cons, List.not_mem_nil, or_false] at hp
  obtain rfl | rfl | rfl | rfl := hp
  · exact isNativeStep_crc8.wordReply_modByMonic (by decide) s a
  · exact isNativeStep_crc16.wordReply_modByMonic (by decide) s a
  · exact isNativeStep_crc32.wordReply_modByMonic (by decide) s a
  · exact isNativeStep_crc64.wordReply_modByMonic (by decide) s a

end Sys2Proof.Machine
end

section
/-! The host contract's combines (spec 44 R187 to R190): the merge block by MERGE commands, the dispatched compute over
a buffer, and two shards. -/

namespace Sys2Proof.Machine

/-! ### The merge block by MERGE commands -/

/-- MERGE past the bytes after a part, with their own CRC, is the CRC of the whole (40 R107), for any length. -/
theorem mergeBy_crcBytes (c : Word) (xs ys : List Byte) {gap : Nat} (hgap : gap = 8 * ys.length) :
    mergeBy Rom.content (crcBytes c xs) (crcBytes 0#32 ys) gap = .ok (crcBytes c (xs ++ ys)) := by
  rw [mergeBy_eq, hgap, ← crcBytes_eq_shift_xor, crcBytes_append]

theorem mergeBlockByMerge_eq {shape : MergeShape} (c : Word) {block : List Byte} (h : block.length = shape.bytes) :
    mergeBlockByMerge Rom.content shape c block = .ok (crcBytes c block) := by
  obtain ⟨xs, ys, zs, rfl, hxs, hys, hzs⟩ := MergeShape.exists_segments h
  have hgapFirst : 64 * shape.words = 8 * ys.length := by omega
  have hgapSecond : 64 * shape.words + 64 * shape.tailWords = 8 * zs.length := by omega
  simp only [mergeBlockByMerge, mergeChains_eq c hxs hys hzs, bind, Except.bind, mergeBy_crcBytes c xs ys hgapFirst,
    mergeBy_crcBytes c (xs ++ ys) zs hgapSecond, List.append_assoc]

/-- Settles O56: both combines shift the CRC of each segment past the bytes after it. -/
theorem mergeBlockBothWaysIsTheCrcOfTheBlock : Obligations.MergeBlockBothWaysIsTheCrcOfTheBlock :=
  fun _ c _ hwords hblock => ⟨mergeBlock_eq hwords c hblock, mergeBlockByMerge_eq c hblock⟩

/-! ### The buffer -/

/-- Some byte of the buffer is not listed (20 R55). -/
def Unlisted (mem : List Host.Cell) (addr len : Nat) : Prop := ∃ j < len, ∀ cell ∈ mem, cell.1 ≠ addr + j

/-- A byte is missing at the first address or later on. -/
theorem unlisted_succ_iff (mem : List Host.Cell) (addr len : Nat) :
    Unlisted mem addr (len + 1) ↔ (∀ cell ∈ mem, cell.1 ≠ addr) ∨ Unlisted mem (addr + 1) len := by
  simp only [Unlisted, Nat.exists_lt_succ_left, Nat.add_zero, Nat.add_assoc, Nat.add_comm 1]

/-- Reading gives all bytes, or stops at a byte that is not listed. -/
theorem readBuffer_cases (mem : List Host.Cell) (addr len : Nat) :
    (¬ Unlisted mem addr len ∧ ∃ data, readBuffer mem addr len = .ok data ∧ data.length = len) ∨
    (Unlisted mem addr len ∧ ∃ a, readBuffer mem addr len = .error (.unreadable a)) := by
  induction len generalizing addr with
  | zero => exact .inl ⟨fun ⟨j, hj, _⟩ => Nat.not_lt_zero j hj, [], rfl, rfl⟩
  | succ len ih =>
    rw [unlisted_succ_iff, readBuffer]
    cases hfind : mem.find? fun cell => cell.1 == addr with
    | none =>
      have hmissing : ∀ cell ∈ mem, cell.1 ≠ addr := by simpa using hfind
      exact .inr ⟨.inl hmissing, addr, rfl⟩
    | some cell =>
      have hlisted : ¬ ∀ cell ∈ mem, cell.1 ≠ addr := fun hall =>
        hall cell (List.mem_of_find?_eq_some hfind) (by simpa using List.find?_some hfind)
      obtain ⟨hrest, data, hread, hlen⟩ | ⟨hrest, a, hread⟩ := ih (addr + 1)
      · refine .inl ⟨not_or.mpr ⟨hlisted, hrest⟩, cell.2 :: data, ?_, by rw [List.length_cons, hlen]⟩
        simp only [hread, bind, Except.bind]
      · exact .inr ⟨.inr hrest, a, by simp only [hread, bind, Except.bind]⟩

section
variable {p : HostParams} {mem : List Host.Cell} {addr len : Nat} (seed : Word)

theorem computeBuffer_of_read (hfold : 2 ≤ p.foldMinBlocks) (hmerge : 1 ≤ p.merge.words) {data : List Byte}
    (hread : readBuffer mem addr len = .ok data) :
    computeBuffer Rom.content p mem seed addr len = .ok (compute seed data) := by
  simp only [computeBuffer, hread, bind, Except.bind, (returnsCrc_dispatch hfold hmerge addr).computeBy_eq]

theorem computeBuffer_of_unreadable {e : HostFault} (hread : readBuffer mem addr len = .error e) :
    computeBuffer Rom.content p mem seed addr len = .error e := by
  simp only [computeBuffer, hread, bind, Except.bind]

end

/-- Settles O57: a buffer that is read gives its bytes to the dispatcher, and only an unlisted byte stops the read. -/
theorem dispatchedComputeOverAReadableBuffer : Obligations.DispatchedComputeOverAReadableBuffer := by
  intro p mem seed addr len hfold hmerge
  obtain ⟨hlisted, data, hread, hlen⟩ | ⟨hunlisted, a, hread⟩ := readBuffer_cases mem addr len
  · refine ⟨fun data' hread' => ?_, fun hunlisted => absurd hunlisted hlisted, fun ⟨a, herror⟩ => ?_⟩
    · obtain rfl : data = data' := Except.ok.inj (hread.symm.trans hread')
      exact ⟨hlen, computeBuffer_of_read seed hfold hmerge hread⟩
    · cases (computeBuffer_of_read seed hfold hmerge hread).symm.trans herror
  · refine ⟨fun data hread' => ?_, fun _ => ⟨a, computeBuffer_of_unreadable seed hread⟩, fun _ => hunlisted⟩
    cases hread.symm.trans hread'

/-! ### Two shards -/

/-- The raw CRC behind a public one. -/
theorem not_compute (s : Word) (ds : List Byte) : ~~~compute s ds = crcBytes (~~~s) ds := BitVec.not_not

/-- A second shard from seed 0xFFFFFFFF has the raw seed 0. -/
theorem not_compute_allOnes (ds : List Byte) : ~~~compute 0xFFFFFFFF#32 ds = crcBytes 0#32 ds := not_compute _ ds

theorem combineShards_eq (s : Word) (xs ys : List Byte) :
    combineShards Rom.content (compute s xs) (compute 0xFFFFFFFF#32 ys) ys.length = .ok (compute s (xs ++ ys)) := by
  rw [combineShards, not_compute, not_compute_allOnes, mergeBy_crcBytes _ xs ys rfl]
  rfl

/-- Settles O58: the shards' raw CRCs merge to the raw CRC of the whole. -/
theorem shardsCombineToTheWhole : Obligations.ShardsCombineToTheWhole := by
  have hfirst : compute 0#32 [0x31#8, 0x32#8, 0x33#8, 0x34#8] = 0xF63AF4EE#32 := by decide +kernel
  have hsecond : compute 0xFFFFFFFF#32 [0x35#8, 0x36#8, 0x37#8, 0x38#8, 0x39#8] = 0x3938EC12#32 := by decide +kernel
  have hwhole : compute 0#32 [0x31#8, 0x32#8, 0x33#8, 0x34#8, 0x35#8, 0x36#8, 0x37#8, 0x38#8, 0x39#8] =
      0xE3069283#32 := by decide +kernel
  refine ⟨fun s xs ys hys => ?_, combineShards_eq, hfirst, hsecond, ?_⟩
  · rw [not_compute s xs, not_compute_allOnes, mergeOfPartsIsTheCrcOfTheWhole _ xs ys hys, not_compute]
  · rw [← hfirst, ← hsecond, ← hwhole]
    exact combineShards_eq _ _ _

end Sys2Proof.Machine
end

section
/-! The assembler (spec 30 R67, R69): what a value, the operands of a line and a whole line read as. -/

namespace Sys2Proof.Machine

variable {i : Instr} {items : List (List Char)} {vs : List (Char × Nat)}

/-! ### Values -/

/-- No run of decimal digits begins like a hexadecimal value. -/
theorem parseValue_of_decimal {ds : List Char} {x : Nat} (h : parseDigits 10 0 ds = some x) :
    parseValue ds = some x := by
  unfold parseValue
  split
  · next ds =>
    have hx : digitValue 10 'x' = none := by decide
    cases ds <;> simp [parseDigits, hx] at h
  · exact h

theorem parseValue_toDigits (x : Nat) : parseValue (Nat.toDigits 10 x) = some x ∧
    parseValue ('0' :: 'x' :: Nat.toDigits 16 x) = some x :=
  ⟨parseValue_of_decimal (parseDigits_toDigits 10 (by decide) (by decide) x),
    parseDigits_toDigits 16 (by decide) (by decide) x⟩

/-! ### Mnemonics -/

theorem mnemonicInstr_eq_some_iff (m : List Char) :
    mnemonicInstr m = some i ↔ i.rowValue = 0 ∧ m = (mnemonicOf i).toList := by
  constructor
  · intro h
    simp only [mnemonicInstr, ite_eq_iff, Option.some.injEq] at h
    repeat' obtain ⟨hm, rfl⟩ | ⟨-, h⟩ := h
    all_goals exact ⟨rfl, hm⟩
  · rintro ⟨hrow, rfl⟩
    cases i with
    | tblrd row =>
      obtain rfl : row = 0 := hrow
      decide
    | _ => decide

/-! ### Operands -/

/-- All that a line's first field can do when the operands parse: take the first item, or be omitted. -/
theorem fieldValues_cons_cases {f : Char} {width : Nat} {fs : List (Char × Nat)}
    (h : fieldValues ((f, width) :: fs) items = some vs) :
    (∃ us, vs = (f, 0) :: us ∧ fieldValues fs items = some us) ∨
    (∃ v rest x us, items = (f :: '=' :: v) :: rest ∧ parseValue v = some x ∧ x < 2 ^ width ∧
      vs = (f, x) :: us ∧ fieldValues fs rest = some us) := by
  cases items with
  | nil =>
    obtain ⟨us, hus, rfl⟩ := Option.map_eq_some_iff.mp h
    exact .inl ⟨us, rfl, hus⟩
  | cons item items =>
    simp only [fieldValues] at h
    split at h
    · next ch v =>
      split at h
      · next hch =>
        obtain ⟨x, hx, h⟩ := Option.bind_eq_some_iff.mp h
        split at h
        · next hfit =>
          obtain ⟨us, hus, rfl⟩ := Option.map_eq_some_iff.mp h
          exact .inr ⟨v, items, x, us, by rw [hch], hx, hfit, rfl, hus⟩
        · cases h
      · obtain ⟨us, hus, rfl⟩ := Option.map_eq_some_iff.mp h
        exact .inl ⟨us, rfl, hus⟩
    · cases h

/-- Each item of a line writes the field it names. -/
theorem fieldValues_writes {fs : List (Char × Nat)} (hnames : (fs.map Prod.fst).Nodup)
    (h : fieldValues fs items = some vs) : ∀ item ∈ items, ∃ p ∈ fs, ∃ v, item = p.1 :: '=' :: v ∧
      parseValue v = some (fieldOr0 p.1 vs) ∧ fieldOr0 p.1 vs < 2 ^ p.2 := by
  induction fs generalizing items vs with
  | nil => cases items <;> simp [fieldValues] at h ⊢
  | cons q fs ih =>
    obtain ⟨f, width⟩ := q
    obtain ⟨hf, hfs⟩ := List.nodup_cons.mp hnames
    have hother : ∀ p ∈ fs, ∀ x us, fieldOr0 p.1 ((f, x) :: us) = fieldOr0 p.1 us := fun p hp x us =>
      if_neg fun he => hf (List.mem_map.mpr ⟨p, hp, he⟩)
    have htail : ∀ rest x us, fieldValues fs rest = some us → ∀ item ∈ rest, ∃ p ∈ (f, width) :: fs, ∃ v,
        item = p.1 :: '=' :: v ∧ parseValue v = some (fieldOr0 p.1 ((f, x) :: us)) ∧
          fieldOr0 p.1 ((f, x) :: us) < 2 ^ p.2 := by
      intro rest x us hus item hitem
      obtain ⟨p, hp, v, hv⟩ := ih hfs hus item hitem
      exact ⟨p, List.mem_cons_of_mem _ hp, v, by rwa [hother p hp]⟩
    obtain ⟨us, rfl, hus⟩ | ⟨v, rest, x, us, rfl, hx, hfit, rfl, hus⟩ := fieldValues_cons_cases h
    · exact htail items 0 us hus
    · have hself : fieldOr0 f ((f, x) :: us) = x := if_pos rfl
      refine List.forall_mem_cons.mpr ⟨⟨(f, width), List.mem_cons_self, v, rfl, ?_⟩, htail rest x us hus⟩
      rw [hself]
      exact ⟨hx, hfit⟩

/-- A field that no item names is 0. -/
theorem fieldOr0_eq_zero {fs : List (Char × Nat)} {g : Char} (h : fieldValues fs items = some vs)
    (hg : ∀ v, (g :: '=' :: v) ∉ items) : fieldOr0 g vs = 0 := by
  induction fs generalizing items vs with
  | nil => cases items <;> simp [fieldValues] at h; subst h; rfl
  | cons q fs ih =>
    obtain ⟨f, width⟩ := q
    obtain ⟨us, rfl, hus⟩ | ⟨v, rest, x, us, rfl, hx, hfit, rfl, hus⟩ := fieldValues_cons_cases h
    · rw [fieldOr0, ih hus hg, ite_self]
    · have hne : g ≠ f := fun he => hg v (he ▸ List.mem_cons_self)
      rw [fieldOr0, if_neg hne, ih hus fun w hw => hg w (List.mem_cons_of_mem _ hw)]

theorem writableFields_nodup (i : Instr) : ((writableFields i).map Prod.fst).Nodup := by
  cases i <;> simp [writableFields, reads]

/-! ### A whole line -/

/-- A line gives an instruction and its operands: its mnemonic's instruction and all its items, or TBLRD with the first
item's value as the row and the items after it. -/
def LineGives (line : List Char) (i : Instr) (items : List (List Char)) : Prop :=
  (mnemonicInstr (splitLine line).1 = some i ∧ i.opcode ≠ 4 ∧ (splitLine line).2 = items) ∨
    (mnemonicInstr (splitLine line).1 = some (.tblrd 0) ∧ ∃ k row, (splitLine line).2 = k :: items ∧
      parseValue k = some row ∧ row < 4 ∧ i = .tblrd row)

theorem assemble_of_lineGives {line : List Char} (h : LineGives line i items) :
    assemble line = (fieldValues (writableFields i) items).map (assembleFields i) := by
  obtain ⟨hm, hop, hitems⟩ | ⟨hm, k, row, hitems, hk, hrow, rfl⟩ := h
  · simp only [assemble, hm, hitems]
    cases i with
    | tblrd row => exact absurd rfl hop
    | _ => rfl
  · simp only [assemble, hm, hitems, hk, Option.bind_some, if_pos hrow]

theorem eq_tblrd_of_opcode (h : i.opcode = 4) : ∃ row, i = .tblrd row := by
  cases i with
  | tblrd row => exact ⟨row, rfl⟩
  | _ => exact absurd h (by decide)

/-- A line that assembles gives an instruction and operands. -/
theorem exists_lineGives {line : List Char} {c : Command} (h : assemble line = some c) :
    ∃ i items, LineGives line i items := by
  simp only [assemble] at h
  split at h
  · cases h
  · cases h
  · next row k items hm hitems =>
    obtain ⟨row', hk, h⟩ := Option.bind_eq_some_iff.mp h
    split at h
    · next hrow =>
      obtain ⟨hzero, -⟩ := (mnemonicInstr_eq_some_iff _).mp hm
      obtain rfl : row = 0 := hzero
      exact ⟨_, items, .inr ⟨hm, k, row', hitems, hk, hrow, rfl⟩⟩
    · cases h
  · next i hm hnil hcons =>
    refine ⟨i, _, .inl ⟨hm, fun hop => ?_, rfl⟩⟩
    obtain ⟨row, rfl⟩ := eq_tblrd_of_opcode hop
    cases hitems : (splitLine line).2 with
    | nil => exact hnil row hitems rfl
    | cons k items => exact hcons row k items hitems rfl

theorem assemble_eq_some_iff (line : List Char) (c : Command) : assemble line = some c ↔
    ∃ i items vs, LineGives line i items ∧ fieldValues (writableFields i) items = some vs ∧
      c = assembleFields i vs := by
  constructor
  · intro h
    obtain ⟨i, items, hline⟩ := exists_lineGives h
    rw [assemble_of_lineGives hline] at h
    obtain ⟨vs, hvs, rfl⟩ := Option.map_eq_some_iff.mp h
    exact ⟨i, items, vs, hline, hvs, rfl⟩
  · rintro ⟨i, items, vs, hline, hvs, rfl⟩
    rw [assemble_of_lineGives hline, hvs, Option.map_some]

/-! ### The forms of the rule -/

/-- The operands of a form: the fields in their order, without TBLRD's row. -/
def FieldTexts.operands (t : FieldTexts) : List (List Char) :=
  fieldItem 's' t.s ++ (fieldItem 'a' t.a ++ (fieldItem 'b' t.b ++ fieldItem 'n' t.n))

theorem mem_fieldItem_iff {f : Char} {text : Option (List Char)} {item : List Char} :
    item ∈ fieldItem f text ↔ ∃ v, text = some v ∧ item = f :: '=' :: v := by
  cases text <;> simp [fieldItem]

theorem FieldTexts.mem_operands_iff {t : FieldTexts} {item : List Char} : item ∈ t.operands ↔
    (∃ v, t.s = some v ∧ item = 's' :: '=' :: v) ∨ (∃ v, t.a = some v ∧ item = 'a' :: '=' :: v) ∨
    (∃ v, t.b = some v ∧ item = 'b' :: '=' :: v) ∨ ∃ v, t.n = some v ∧ item = 'n' :: '=' :: v := by
  simp only [FieldTexts.operands, List.mem_append, mem_fieldItem_iff]

/-- The items parse as values of the fields `fs`, and each is a value written for one of the names. -/
structure OperandsParse (names : List Char) (fs : List (Char × Nat)) (items : List (List Char)) : Prop where
  parses : ∃ us, fieldValues fs items = some us
  written : ∀ item ∈ items, ∃ g ∈ names, ∃ v x, item = g :: '=' :: v ∧ parseValue v = some x

theorem OperandsParse.nil : OperandsParse [] [] [] := ⟨⟨[], rfl⟩, by simp⟩

/-- One more field before them; where it is not read, it is omitted. -/
theorem OperandsParse.cons {names : List Char} {f : Char} {read width : Nat} {fs : List (Char × Nat)}
    {text : Option (List Char)} (h : OperandsParse names fs items) (hf : f ∉ names)
    (htext : textFits read width text) :
    OperandsParse (f :: names) ((if read = 0 then [] else [(f, width)]) ++ fs) (fieldItem f text ++ items) := by
  obtain ⟨⟨us, hus⟩, hwritten⟩ := h
  constructor
  · split
    · next hread =>
      cases text with
      | none => exact ⟨us, hus⟩
      | some v =>
        obtain ⟨hne, -⟩ := htext
        exact absurd hread hne
    · refine ⟨_, fieldValues_fieldItem htext (fun v hv => ?_) (fun item hitem => ?_) hus⟩
      · obtain ⟨g, hg, w, x, he, -⟩ := hwritten _ hv
        obtain ⟨rfl, -⟩ := List.cons.inj he
        exact hf hg
      · obtain ⟨g, -, w, x, he, -⟩ := hwritten _ hitem
        exact ⟨g, w, he⟩
  · refine List.forall_mem_append.mpr ⟨fun item hitem => ?_, fun item hitem => ?_⟩
    · obtain ⟨v, rfl, rfl⟩ := mem_fieldItem_iff.mp hitem
      obtain ⟨-, x, -, hx⟩ := htext
      exact ⟨f, List.mem_cons_self, v, x, rfl, hx⟩
    · obtain ⟨g, hg, hv⟩ := hwritten item hitem
      exact ⟨g, List.mem_cons_of_mem _ hg, hv⟩

theorem FieldTexts.Fits.operandsParse {t : FieldTexts} (ht : t.Fits i) :
    OperandsParse ['s', 'a', 'b', 'n'] (writableFields i) t.operands := by
  obtain ⟨hs, ha, hb, hn⟩ := ht
  have hall := (((OperandsParse.nil.cons (f := 'n') (by decide) hn).cons (f := 'b') (by decide) hb).cons
    (f := 'a') (by decide) ha).cons (f := 's') (by decide) hs
  simpa only [writableFields, FieldTexts.operands, List.append_assoc, List.append_nil] using hall

/-- A field has the value of its text, 0 where it has none. -/
theorem fieldOr0_eq_textValue {f : Char} {text : Option (List Char)}
    (h : fieldValues (writableFields i) items = some vs) (hmem : ∀ v, f :: '=' :: v ∈ items ↔ text = some v) :
    fieldOr0 f vs = textValue text := by
  cases text with
  | none => exact fieldOr0_eq_zero h fun v hv => by cases (hmem v).mp hv
  | some v =>
    obtain ⟨p, -, w, he, hw, -⟩ := fieldValues_writes (writableFields_nodup i) h _ ((hmem v).mpr rfl)
    obtain ⟨rfl, hvw⟩ := List.cons.inj he
    obtain ⟨-, rfl⟩ := List.cons.inj hvw
    rw [textValue, hw, Option.getD_some]

/-- A value written for a field has neither blank nor comma. -/
theorem OperandsParse.plain {fs : List (Char × Nat)} (h : OperandsParse ['s', 'a', 'b', 'n'] fs items) :
    ∀ item ∈ items, Plain item ∧ item ≠ [] := by
  intro item hitem
  obtain ⟨g, hg, v, x, rfl, hx⟩ := h.written item hitem
  have hnames : ∀ g ∈ ['s', 'a', 'b', 'n'], g ≠ ' ' ∧ g ≠ ',' := by simp
  exact ⟨List.forall_mem_cons.mpr ⟨hnames g hg, List.forall_mem_cons.mpr ⟨by decide, parseValue_chars hx⟩⟩,
    List.cons_ne_nil _ _⟩

theorem lineItems_of_opcode_ne (hop : i.opcode ≠ 4) (rowText : List Char) (t : FieldTexts) :
    lineItems i rowText t = t.operands := by
  cases i with
  | tblrd row => exact absurd rfl hop
  | _ => rfl

theorem splitLine_formLine {rowText : List Char} {t : FieldTexts}
    (h : ∀ item ∈ lineItems i rowText t, Plain item ∧ item ≠ []) :
    splitLine (formLine i rowText t) = ((mnemonicOf i).toList, lineItems i rowText t) := by
  obtain ⟨hne, hblank⟩ : (mnemonicOf i).toList ≠ [] ∧ ∀ c ∈ (mnemonicOf i).toList, c ≠ ' ' := by
    cases i <;> simp [mnemonicOf]
  exact splitLine_joinItems _ hne hblank _ h

theorem mnemonicInstr_mnemonicOf (hop : i.opcode ≠ 4) : mnemonicInstr (mnemonicOf i).toList = some i := by
  refine (mnemonicInstr_eq_some_iff _).mpr ⟨?_, rfl⟩
  cases i with
  | tblrd row => exact absurd rfl hop
  | _ => rfl

/-- A form gives its instruction and its operands. -/
theorem lineGives_formLine {rowText : List Char} {t : FieldTexts} (hi : i.wellFormed = true)
    (hrow : ∀ row, i = .tblrd row → parseValue rowText = some row) (ht : t.Fits i) :
    LineGives (formLine i rowText t) i t.operands := by
  have hplain := ht.operandsParse.plain
  by_cases hop : i.opcode = 4
  · obtain ⟨row, rfl⟩ := eq_tblrd_of_opcode hop
    have hparse := hrow row rfl
    have hsplit : splitLine (formLine (.tblrd row) rowText t) = ("TBLRD".toList, rowText :: t.operands) :=
      splitLine_formLine (List.forall_mem_cons.mpr ⟨⟨parseValue_chars hparse, parseValue_ne_nil hparse⟩, hplain⟩)
    refine .inr ⟨?_, rowText, row, ?_, hparse, of_decide_eq_true hi, rfl⟩
    · rw [hsplit]
      exact (mnemonicInstr_eq_some_iff _).mpr ⟨rfl, rfl⟩
    · rw [hsplit]
  · have hitems := lineItems_of_opcode_ne hop rowText t
    have hsplit := splitLine_formLine (i := i) (rowText := rowText) (t := t) (by rwa [hitems])
    refine .inl ⟨?_, hop, ?_⟩
    · rw [hsplit, mnemonicInstr_mnemonicOf hop]
    · rw [hsplit, hitems]

theorem assemble_formLine {rowText : List Char} {t : FieldTexts} (hi : i.wellFormed = true)
    (hrow : ∀ row, i = .tblrd row → parseValue rowText = some row) (ht : t.Fits i) :
    assemble (formLine i rowText t) = some ⟨encode i, BitVec.ofNat 32 (textValue t.s),
      BitVec.ofNat 128 (textValue t.a), BitVec.ofNat 128 (textValue t.b), BitVec.ofNat 32 (textValue t.n)⟩ := by
  obtain ⟨vs, hvs⟩ := ht.operandsParse.parses
  have hs : fieldOr0 's' vs = textValue t.s := fieldOr0_eq_textValue hvs (by simp [FieldTexts.mem_operands_iff])
  have ha : fieldOr0 'a' vs = textValue t.a := fieldOr0_eq_textValue hvs (by simp [FieldTexts.mem_operands_iff])
  have hb : fieldOr0 'b' vs = textValue t.b := fieldOr0_eq_textValue hvs (by simp [FieldTexts.mem_operands_iff])
  have hn : fieldOr0 'n' vs = textValue t.n := fieldOr0_eq_textValue hvs (by simp [FieldTexts.mem_operands_iff])
  rw [assemble_of_lineGives (lineGives_formLine hi hrow ht), hvs, Option.map_some, assembleFields, hs, ha, hb, hn]

/-! ### The statement -/

/-- Settles O5: a line gives an instruction and operands, and the operands give each field its value or 0. -/
theorem assemblerWritesFieldsAndZerosTheRest : Obligations.AssemblerWritesFieldsAndZerosTheRest :=
  ⟨fun _ _ _ => assemble_formLine, parseValue_toDigits, assemble_eq_some_iff,
    fun i _ _ h => ⟨fieldValues_writes (writableFields_nodup i) h, fun _ => fieldOr0_eq_zero h⟩,
    fun _ => mnemonicInstr_eq_some_iff, by decide, by decide, fun i s n a b => by simp [assembleFields, fieldOr0],
    fun _ => rfl⟩

end Sys2Proof.Machine
end
